-- ==== Sys2Proof/Word.lean ====
section
/-! DEFINITION. The wire words of the codec (spec 00_scope.md R5, R7): unsigned fixed-width values. -/

namespace Sys2Proof

/-- `bits8`: one payload byte, or a register id (R5). -/
abbrev Byte := BitVec 8

/-- `bits16`: a wire word of MUX or DIV; a BUS byte is carried in it zero-extended (R5, R28 `wire_in`). -/
abbrev Word16 := BitVec 16

/-- The 9-bit select `{dir, id}` of the codec or `{rw, id}` of the transport (R50, R56, R57). -/
abbrev Select9 := BitVec 9

end Sys2Proof
end

