-- ==== Sys2Proof/Config.lean ====
section
/-! DEFINITION. What the spec leaves open: the open parameters of reset (R21, R151, D13) and the draws (R9). Every value
here is opaque: no proof can use what it is. -/

namespace Sys2Proof

/-- What the environment decides about ONE transport call. A draw is "a value the rules leave free; a model takes it as
an input under no law" (R9). DESIGN CHOICE (the form), log 6; safe. -/
structure Draw where
  /-- Whether the call fails with IoError (R135, D18, U13). -/
  fails : Bool
  /-- What the reserved bits of a value read from the device hold (R19, D10, U1). -/
  reserved : Word16
  /-- After a FAILED write: whether the register holds the new value (R43, D18, U7). -/
  regNew : Bool
  /-- Whether the EEPROM copy of BUS takes the value, where the rules leave that open (R24, D18, D19, U6). -/
  nvBus : Bool
  /-- The same for the EEPROM copy of MUX (R43, D18). -/
  nvMux : Bool
  /-- The same for the EEPROM copy of DIV (R43, D18). -/
  nvDiv : Bool
deriving DecidableEq, Repr, Inhabited

namespace Config

/-- The draw of the n-th transport call for which the state lists none (log 6). -/
opaque draw : Nat → Draw

/-- `POR_BUS`, the power-on content of BUS, under no law (R21, R151, D13, log 4). -/
opaque porBus : Byte

/-- `POR_MUX`, the power-on content of MUX, under no law (R21, R151, D13, log 4). -/
opaque porMux : Word16

/-- `POR_DIV`, the power-on content of DIV, under no law (R21, R151, D13, log 4). -/
opaque porDiv : Word16

/-- The content of the EEPROM copy of BUS at power-on, unspecified (R151, NS5, log 5). -/
opaque nvBus0 : Byte

/-- The content of the EEPROM copy of MUX at power-on, unspecified (R151, NS5, log 5). -/
opaque nvMux0 : Word16

/-- The content of the EEPROM copy of DIV at power-on, unspecified (R151, NS5, log 5). -/
opaque nvDiv0 : Word16

end Config

end Sys2Proof
end

