-- ==== Sys2Proof/Syntax.lean ====
section
/-! DEFINITION. The fifteen operations of spec/opcode_table.json, one constructor per row. -/

namespace Sys2Proof

/-- One operation of the codec block or of its transport (R1). The operands of the six codec operations and of the
writes are the caller's locals `t` and `r` (R61), which the machine's state holds; the two prescaler sub-functions
take their operand with the call, as their table rows `cc` and `dddddddd` spell it. -/
inductive Instr where
  /-- DIV.DEC, R81. -/
  | divDec
  /-- DIV.ENC, R83. -/
  | divEnc
  /-- MUX.DEC, R95. -/
  | muxDec
  /-- MUX.ENC, R97. -/
  | muxEnc
  /-- BUS.DEC, R70. -/
  | busDec
  /-- BUS.ENC, R72. -/
  | busEnc
  /-- PRE.DEC of a 2-bit code, R91. -/
  | preDec (code : BitVec 2)
  /-- PRE.ENC of a divisor, a natural number, R93. -/
  | preEnc (divisor : Nat)
  /-- RD.DIV, R111. -/
  | rdDiv
  /-- RD.MUX, R112. -/
  | rdMux
  /-- RD.BUS, R113. -/
  | rdBus
  /-- WR.DIV, R115. -/
  | wrDiv
  /-- WR.MUX, R116. -/
  | wrMux
  /-- WR.BUS, R117. -/
  | wrBus
  /-- E2W, the EEPROM-write trigger, R120. -/
  | e2w
deriving DecidableEq, Repr

end Sys2Proof
end

