-- ==== Sys2Proof/WellFormed.lean ====
section
/-! DEFINITION. Which operations have a spelling: operand ranges of spec/opcode_table.json. -/

namespace Sys2Proof

/-- The divisor of PRE.ENC is a natural number (R93), but its port is 8 bits wide (D4, table row `dddddddd`): a divisor
above 255 has no spelling. It still has a meaning (the error of R93). Every other operand's type is its range. -/
def Instr.wellFormed : Instr → Bool
  | .preEnc divisor => decide (divisor < 256)
  | .divDec => true
  | .divEnc => true
  | .muxDec => true
  | .muxEnc => true
  | .busDec => true
  | .busEnc => true
  | .preDec _ => true
  | .rdDiv => true
  | .rdMux => true
  | .rdBus => true
  | .wrDiv => true
  | .wrMux => true
  | .wrBus => true
  | .e2w => true

end Sys2Proof
end

