-- ==== Sys2Proof/Decode.lean ====
section
/-! DEFINITION. Decoding and encoding of operation selects: 30_encoding.md R56, R57, R58, R60 and the SUB rows of
spec/opcode_table.json. -/

namespace Sys2Proof

/-- Which of the four callable interfaces an operation is spelled on. CODEC9 and XFER9 use the same nine bits (0x001 is
DIV.DEC on the codec's select and RD.DIV on the transport's), and the SUB rows are selected by the call itself, so the
interface belongs to the spelling. DESIGN CHOICE, log 2; safe. -/
inductive Interface where
  /-- The codec's `op_sel`, format CODEC9 (R56). -/
  | codec
  /-- The transport wrapper's `{rw, id}`, format XFER9 (R57). -/
  | transport
  /-- A direct call of `decode_prescaler` (R91). -/
  | decodePrescaler
  /-- A direct call of `encode_prescaler` (R93). -/
  | encodePrescaler
deriving DecidableEq, Repr

/-- Why the bytes of a call spell no operation. -/
inductive DecodeError where
  /-- A 9-bit select in no table of R56 or R57 (R60). -/
  | undefinedSelect (iface : Interface) (sel : Select9)
  /-- Not a value of the interface's width: a wrong number of bytes, or a bit set above the width. -/
  | malformed (iface : Interface) (bytes : List Byte)
deriving DecidableEq, Repr

/-- What decoding answers: an operation, or a named reason why there is none. -/
inductive Decoded where
  | instr (i : Instr)
  | error (e : DecodeError)
deriving DecidableEq, Repr

/-- One row of a select table: the 9 bits and the operation they select. -/
structure SelectRow where
  sel : Select9
  instr : Instr
deriving DecidableEq, Repr

/-- The six defined values of CODEC9 (R56). -/
def codecTable : List SelectRow :=
  [⟨0x001#9, .divDec⟩, ⟨0x002#9, .muxDec⟩, ⟨0x00D#9, .busDec⟩,
   ⟨0x101#9, .divEnc⟩, ⟨0x102#9, .muxEnc⟩, ⟨0x10D#9, .busEnc⟩]

/-- The seven defined values of XFER9 (R57). -/
def transportTable : List SelectRow :=
  [⟨0x001#9, .rdDiv⟩, ⟨0x002#9, .rdMux⟩, ⟨0x00D#9, .rdBus⟩,
   ⟨0x101#9, .wrDiv⟩, ⟨0x102#9, .wrMux⟩, ⟨0x10D#9, .wrBus⟩, ⟨0x13F#9, .e2w⟩]

/-- The operation a table gives a select, by the first row that matches. -/
def lookupSelect : List SelectRow → Select9 → Option Instr
  | [], _ => none
  | row :: rows, sel => if sel = row.sel then some row.instr else lookupSelect rows sel

/-- The select value two bytes hold, low byte first (log 3); none where a bit above bit 8 is set. -/
def selectOfBytes (b0 b1 : Byte) : Option Select9 :=
  if b1.toNat < 2 then some ((b1 ++ b0).setWidth 9) else none

/-- The two bytes of a select, low byte first; the seven bits above it are 0 (log 3). -/
def bytesOfSelect (sel : Select9) : List Byte :=
  [sel.setWidth 8, (sel >>> 8).setWidth 8]

/-- Decodes a select against one of the two tables, refusing every undefined value by name (R60). -/
def decodeSelect (iface : Interface) (table : List SelectRow) (bytes : List Byte) : Decoded :=
  match bytes with
  | [b0, b1] =>
    match selectOfBytes b0 b1 with
    | some sel =>
      match lookupSelect table sel with
      | some i => .instr i
      | none => .error (.undefinedSelect iface sel)
    | none => .error (.malformed iface bytes)
  | _ => .error (.malformed iface bytes)

/-- The decoder, total on any bytes. -/
def decode (iface : Interface) (bytes : List Byte) : Decoded :=
  match iface with
  | .codec => decodeSelect .codec codecTable bytes
  | .transport => decodeSelect .transport transportTable bytes
  | .decodePrescaler =>
    match bytes with
    | [b] => if b.toNat < 4 then .instr (.preDec (b.setWidth 2)) else .error (.malformed iface bytes)
    | _ => .error (.malformed iface bytes)
  | .encodePrescaler =>
    match bytes with
    | [b] => .instr (.preEnc b.toNat)
    | _ => .error (.malformed iface bytes)

/-- The interface an operation is called on (R56, R57; "sub-function", R91, R93). -/
def Instr.iface : Instr → Interface
  | .divDec => .codec
  | .divEnc => .codec
  | .muxDec => .codec
  | .muxEnc => .codec
  | .busDec => .codec
  | .busEnc => .codec
  | .preDec _ => .decodePrescaler
  | .preEnc _ => .encodePrescaler
  | .rdDiv => .transport
  | .rdMux => .transport
  | .rdBus => .transport
  | .wrDiv => .transport
  | .wrMux => .transport
  | .wrBus => .transport
  | .e2w => .transport

/-- The bytes of an operation on its interface, written from R56, R57 and the SUB rows of the table. -/
def encode : Instr → List Byte
  | .divDec => bytesOfSelect 0x001#9
  | .muxDec => bytesOfSelect 0x002#9
  | .busDec => bytesOfSelect 0x00D#9
  | .divEnc => bytesOfSelect 0x101#9
  | .muxEnc => bytesOfSelect 0x102#9
  | .busEnc => bytesOfSelect 0x10D#9
  | .preDec code => [code.setWidth 8]
  | .preEnc divisor => [BitVec.ofNat 8 divisor]
  | .rdDiv => bytesOfSelect 0x001#9
  | .rdMux => bytesOfSelect 0x002#9
  | .rdBus => bytesOfSelect 0x00D#9
  | .wrDiv => bytesOfSelect 0x101#9
  | .wrMux => bytesOfSelect 0x102#9
  | .wrBus => bytesOfSelect 0x10D#9
  | .e2w => bytesOfSelect 0x13F#9

/-- The call that a bare table word is read as: a row of at most 8 bits is a prescaler call (a value below 4 a code,
any other a divisor), a longer row a select of the TRANSPORT. The table's words of CODEC9 and XFER9 coincide, so no
function of the word alone can give both; the id byte of XFER9 is the one that crosses the wire (R57). DESIGN CHOICE,
log 2. -/
def tableCall (nbits w : Nat) : Interface × List Byte :=
  if nbits ≤ 8 then
    if w < 4 then (.decodePrescaler, [BitVec.ofNat 8 w])
    else if w < 256 then (.encodePrescaler, [BitVec.ofNat 8 w])
    else (.encodePrescaler, [])
  else if w < 65536 then (.transport, [BitVec.ofNat 8 w, BitVec.ofNat 8 (w / 256)])
  else (.transport, [])

/-- The operation the decoder reads from a bare table word (log 2). -/
def decodeTableWord (nbits w : Nat) : Option Instr :=
  match decode (tableCall nbits w).1 (tableCall nbits w).2 with
  | .instr i => some i
  | .error _ => none

end Sys2Proof
end

