-- ==== Sys2Proof/Machine/Constants.lean ====
section
/-! DEFINITION. The constants of 00_scope.md R4, the register ids and masks, the address map of R31. -/

namespace Sys2Proof.Machine

/-- The three registers of the device (R15, R16, R17). -/
inductive RegId where
  | div
  | mux
  | bus
deriving DecidableEq, Repr

/-- `BASE_ADDR`, the lowest legal address (R4). -/
def baseAddr : Nat := 0x58

/-- `ADDR_MAX`, the highest legal address (R4). -/
def addrMax : Nat := 0x5F

/-- `DEFAULT_DEV_ADDR`, the device address the transport uses unless overridden (R4, R26). -/
def defaultDevAddr : Nat := 0x58

/-- `CMD_E2W`, the EEPROM-write trigger command (R4, R120). -/
def cmdE2W : Byte := 0x3F#8

/-- `N_MIN` (R4). -/
def nMin : Nat := 2

/-- `N_MAX` (R4). -/
def nMax : Nat := 1025

/-- `N_OFFSET`, the logical divisor minus the stored value (R4, R80). -/
def nOffset : Nat := 2

/-- `ID_DIV`, `ID_MUX`, `ID_BUS` (R4, R31). -/
def RegId.id : RegId → Byte
  | .div => 0x01#8
  | .mux => 0x02#8
  | .bus => 0x0D#8

/-- `LEN_DIV`, `LEN_MUX`, `LEN_BUS`: the payload width in bytes (R4, R37, R58). -/
def RegId.len : RegId → Nat
  | .div => 2
  | .mux => 2
  | .bus => 1

/-- The defined-bit masks `MASK_DIV`, `MASK_MUX`, `MASK_BUS` (R19), on the 16-bit wire value. -/
def RegId.mask : RegId → Word16
  | .div => 0xC0FF#16
  | .mux => 0xC07F#16
  | .bus => 0x000F#16

/-- The bits a register's wire value has: all 16, or the low 8 of BUS (R15, R16, R17). -/
def RegId.width : RegId → Word16
  | .div => 0xFFFF#16
  | .mux => 0xFFFF#16
  | .bus => 0x00FF#16

/-- The address map of the register space (R31): every other id names no register. -/
def RegId.ofId (id : Byte) : Option RegId :=
  if id = 0x01#8 then some .div
  else if id = 0x02#8 then some .mux
  else if id = 0x0D#8 then some .bus
  else none

/-- Whether an address lies in 0x58..0x5F (R11, R32, R133). -/
def addressLegal (a : Nat) : Bool := decide (baseAddr ≤ a) && decide (a ≤ addrMax)

end Sys2Proof.Machine
end

