-- ==== Sys2Proof/Machine/State.lean ====
section
/-! DEFINITION. The state of the device, the transport and the caller (10_state.md, 30_encoding.md R61,
70_reset_and_hazards.md R151 to R153), the reasons a step stops, and the state after reset. -/

namespace Sys2Proof.Machine

/-- The closed error taxonomy (R130). An error is no fault of the machine: an operation that raises one answers a NEXT
state (R138, log 13). -/
inductive OpError where
  /-- n outside 2..1025 (R131). -/
  | invalidDivisor
  /-- A prescaler divisor not in 1, 2, 4, 8 (R132). -/
  | invalidPrescaler
  /-- An address outside 0x58..0x5F (R133). -/
  | invalidAddress
  /-- A transport read, write, open or configuration failed (R135). -/
  | ioError
deriving DecidableEq, Repr

/-- `BusRegister` (R11, its address a natural number, log 26): `address` is the full device address; `writeControl` is true when the hardware WC bit is 0. -/
structure BusRegister where
  address : Nat
  writeControl : Bool
deriving DecidableEq, Repr

/-- `MuxRegister` (R12), the fields in the document's order; the prescaler fields hold divisors, not codes (D20). -/
structure MuxRegister where
  pdn1 : Bool
  pdn0 : Bool
  sel0 : Bool
  en0 : Bool
  prescaler0 : Nat
  prescaler1 : Nat
  div1 : Bool
deriving DecidableEq, Repr

/-- `DivRegister` (R13): the logical divisor. -/
structure DivRegister where
  n : Nat
deriving DecidableEq, Repr

/-- A typed record, the value of the caller's local `r` (R61). -/
inductive Record where
  | bus (b : BusRegister)
  | mux (m : MuxRegister)
  | div (d : DivRegister)
deriving DecidableEq, Repr

/-- Where the caller's wire value came from: a read of a register, or an encode for it (R61, U2). -/
inductive Source where
  | read (x : RegId)
  | encoded (x : RegId)
deriving DecidableEq, Repr

/-- The caller's local `t` (R61): a wire value, BUS bytes zero-extended as on `wire_in` and `wire_out` (R28, log 10). -/
structure WireValue where
  value : Word16
  source : Source
deriving DecidableEq, Repr

/-- What a direct call of a prescaler sub-function returned (R91, R93, log 15). -/
inductive SubResult where
  | divisor (p : Nat)
  | code (c : BitVec 2)
deriving DecidableEq, Repr

/-- The wire contents of the three registers (R20); the EEPROM copy has the same shape (R23). -/
structure Regs where
  bus : Byte
  mux : Word16
  div : Word16
deriving DecidableEq, Repr

/-- The direction of a transfer (R57, R62). -/
inductive Direction where
  | read
  | write
deriving DecidableEq, Repr

/-- One wire tuple `(rw, id, payload)` (R62), the payload in transmission order (R36). `payload` is none for a read that
failed ("no payload obtained", 95_test_vectors.md program 6); `completed` is false for a transfer that failed (log 18). -/
structure Transfer where
  rw : Direction
  id : Byte
  payload : Option (List Byte)
  completed : Bool
deriving DecidableEq, Repr

/-- How far the set-up of R153 has come: open the device node, bind the address, configure (log 14). -/
inductive Handle where
  | closed
  | opened
  | bound
  | configured
deriving DecidableEq, Repr

/-- A caller-side field change `SET f, v` (R61), one constructor per field of R11, R12 and R13. -/
inductive FieldSet where
  | address (v : Nat)
  | writeControl (v : Bool)
  | n (v : Nat)
  | pdn1 (v : Bool)
  | pdn0 (v : Bool)
  | sel0 (v : Bool)
  | en0 (v : Bool)
  | prescaler0 (v : Nat)
  | prescaler1 (v : Nat)
  | div1 (v : Bool)
deriving DecidableEq, Repr

/-- One line of a sequence (R61, R121). -/
inductive Line where
  /-- An operation of the table, spelled by its bytes on an interface. -/
  | op (iface : Interface) (bytes : List Byte)
  /-- `SET f, v`: a caller-side field change, no hardware operation (R61). -/
  | set (f : FieldSet)
  /-- A record constructed by the caller (R152). -/
  | make (rec : Record)
  /-- Set-up (1): open the bus device node (R153). -/
  | openHandle
  /-- Set-up (2): validate the target device address and bind the handle to it (R153). -/
  | bindHandle (target : Nat)
  /-- Set-up (3): configure the handle (R153). -/
  | configureHandle
deriving DecidableEq, Repr

/-- The outcome of a sequence (R121, R124, R138). -/
inductive Status where
  /-- No sequence has been issued (log 1). -/
  | idle
  /-- A sequence is running. -/
  | running
  /-- The sequence ended without error (R121). -/
  | success
  /-- The first error, which ended the sequence (R121, R138). -/
  | failed (e : OpError)
deriving DecidableEq, Repr

/-- Everything the spec gives the machine to hold (INVENTORY.md, State). The codec block holds nothing (R10). -/
structure State where
  /-- The volatile contents of BUS, MUX, DIV (R20). -/
  reg : Regs
  /-- The EEPROM copy (R23). -/
  nv : Regs
  /-- The device address the handle is bound to (R26). -/
  devAddr : Nat
  /-- The wrapper's handle (R153). -/
  handle : Handle
  /-- The wire tuples so far, oldest first (R62): an output. -/
  wire : List Transfer
  /-- The caller's local `t` (R61); none is the spec's own "holds no value" (R152). -/
  t : Option WireValue
  /-- The caller's local `r` (R61); none is the spec's own "holds no value" (R152). -/
  r : Option Record
  /-- What the last direct prescaler call returned (log 15). -/
  sub : Option SubResult
  /-- The lines of the running sequence not yet run (R121). -/
  lines : List Line
  /-- The outcome of the sequence (R121, R124). -/
  status : Status
  /-- `MUX_P1_SWAPPED` (R99, D9): configuration, changed by no step. -/
  p1Swapped : Bool
  /-- The model's own: the environment's answers for the next transport calls (R9, log 6). -/
  draws : List Draw
  /-- The model's own: the index of the next opaque draw (log 6). -/
  drawCount : Nat
deriving DecidableEq, Repr

/-- The spec describes no fault of the machine: an error is a value the operation returns (R138), and what has no meaning
is refused (D11, U2, U3, U16). So this type has no constructor (log 20). -/
inductive Fault where
deriving DecidableEq, Repr

/-- Why a step has no meaning. Every refusal is SAFE: the model stops where the spec gives no effect. -/
inductive Refusal where
  /-- An operation whose meaning is not written; raised by no arm. Safe. -/
  | notModelled (mnemonic : String)
  /-- A call whose bytes spell no operation: an undefined select (R60, D11) or no value of the width; raised when a line
  is fetched. Safe. -/
  | noSuchOperation (e : DecodeError)
  /-- `DEC` or `WR` before `t` has a value: "ill-formed and a model refuses it" (R152, U16). Safe. -/
  | wireValueMissing
  /-- `SET` or `ENC` before `r` has a value (R152, U16). Safe. -/
  | recordMissing
  /-- `ENC X` where `r` is no record of X, so X's record has no value (R14, R152, log 12). Safe. -/
  | recordOfOtherRegister
  /-- `SET f` where `r` has no field f (R61, log 12). Safe. -/
  | fieldOfOtherRecord
  /-- `WR X` of a value that did not come from `X.ENC`: "outside the model" (U2, R115 to R117, log 11). Safe. -/
  | operandNotEncoded
  /-- `RD`, `WR` or `E2W` before the set-up is complete: "Only then may ... be issued" (R153, log 14). Safe. -/
  | handleNotConfigured
  /-- A set-up action out of the order of R153 (D16, log 14). Safe. -/
  | setupOutOfOrder
  /-- An access to an id outside the address map (R31, D11, U3). Safe. -/
  | unknownRegister (id : Byte)
  /-- An access of a width other than the register's (R37, D11, U3). Safe. -/
  | wrongPayloadWidth (id : Byte) (n : Nat)
deriving DecidableEq, Repr

/-- The machine right after reset (R150, R151, R152): the codec has nothing to reset; the device registers and the EEPROM
copy hold open parameters (log 4, 5); the device address is 0x58; no handle, no locals, no sequence (log 1, 14). -/
def State.reset : State where
  reg := { bus := Config.porBus, mux := Config.porMux, div := Config.porDiv }
  nv := { bus := Config.nvBus0, mux := Config.nvMux0, div := Config.nvDiv0 }
  devAddr := defaultDevAddr
  handle := .closed
  wire := []
  t := none
  r := none
  sub := none
  lines := []
  status := .idle
  p1Swapped := false
  draws := []
  drawCount := 0

end Sys2Proof.Machine
end

