-- ==== Sys2Proof/Machine/Flags.lean ====
section
/-! DEFINITION. The block has NO flags and no condition codes (R14: "no flags and no condition codes"; every operation:
"Flags written: none"). What stands in their place: the error code and valid output of R28 and R136, the exit code of R124. -/

namespace Sys2Proof.Machine

/-- The 3-bit code of an error (R136, D5). -/
def OpError.code : OpError → BitVec 3
  | .invalidDivisor => 1#3
  | .invalidPrescaler => 2#3
  | .invalidAddress => 3#3
  | .ioError => 4#3

/-- `err[2:0]` of an operation's result: 0 when there is no error (R28, R136). -/
def errCode {α : Type} : Except OpError α → BitVec 3
  | .ok _ => 0#3
  | .error e => e.code

/-- The host-visible exit code of an ended sequence: 0 on success, 1 on any error (R124). -/
def Status.exitCode : Status → Option Nat
  | .idle => none
  | .running => none
  | .success => some 0
  | .failed _ => some 1

end Sys2Proof.Machine
end

