-- ==== Sys2Proof/Machine/Operands.lean ====
section
/-! DEFINITION. Operand assembly (R55): the bit fields of the wire formats (R51, R52, R53), the prescaler table (R54, R90)
and the byte order of a payload (R34, R36). Pure functions. -/

namespace Sys2Proof.Machine

/-! ### Byte order -/

/-- `WordOfBytes(b1, b2) = {b2, b1}`: the first transmitted byte is bits 7..0 (R34). -/
def wordOfBytes (b1 b2 : Byte) : Word16 := b2 ++ b1

/-- `BytesOfWord(w) = [w[7:0], w[15:8]]`, first transmitted byte first (R34). -/
def bytesOfWord (w : Word16) : List Byte := [w.extractLsb' 0 8, w.extractLsb' 8 8]

/-- The payload of a register's wire value in transmission order (R36): one byte for BUS, two for MUX and DIV. -/
def payloadOf (x : RegId) (v : Word16) : List Byte :=
  match x with
  | .div => bytesOfWord v
  | .mux => bytesOfWord v
  | .bus => [v.extractLsb' 0 8]

/-- The wire value a payload spells; the single byte of BUS is zero-extended (R34, R35). A payload of another length
spells none (R37). -/
def valueOfPayload : List Byte → Word16
  | [b] => b.setWidth 16
  | [b1, b2] => wordOfBytes b1 b2
  | _ => 0#16

/-- A register's content as a 16-bit wire value. -/
def Regs.value (x : RegId) (g : Regs) : Word16 :=
  match x with
  | .div => g.div
  | .mux => g.mux
  | .bus => g.bus.setWidth 16

/-- A register cell set to a wire value; BUS keeps the low byte. -/
def Regs.put (x : RegId) (v : Word16) (g : Regs) : Regs :=
  match x with
  | .div => { g with div := v }
  | .mux => { g with mux := v }
  | .bus => { g with bus := v.extractLsb' 0 8 }

/-- The bits of a value that some field of register x holds (R19). -/
def definedBits (x : RegId) (v : Word16) : Word16 := v &&& x.mask

/-- What a read of a register returns: its defined bits, and a draw in each reserved bit (R19, R20, D10, log 7). -/
def readValue (x : RegId) (g : Regs) (reserved : Word16) : Word16 :=
  (g.value x &&& x.mask) ||| (reserved &&& (x.width &&& ~~~x.mask))

/-- The hardware WC bit, bit 3 of a BUS byte, active low (R15, R71). -/
def wcBit (b : Byte) : Bool := b.getLsbD 3

/-! ### The prescaler table -/

/-- `PRESCALER_TABLE = [1, 2, 4, 8]` (R90), as the four rows of R54: code and divisor. -/
def prescalerTable : List (BitVec 2 × Nat) := [(0b00#2, 1), (0b01#2, 2), (0b10#2, 4), (0b11#2, 8)]

/-- The divisor of the row with a given code; the caller passes rows that hold it. -/
def divisorOfCode : List (BitVec 2 × Nat) → BitVec 2 → Nat
  | [], _ => 0
  | row :: rows, c => if c = row.1 then row.2 else divisorOfCode rows c

/-- The code of the row with a given divisor, if a row has it. -/
def codeOfDivisor : List (BitVec 2 × Nat) → Nat → Option (BitVec 2)
  | [], _ => none
  | row :: rows, p => if p = row.2 then some row.1 else codeOfDivisor rows p

/-- PRE.DEC, `PRESCALER_TABLE[c]` (R91); total on the four codes. -/
def preDec (c : BitVec 2) : Nat := divisorOfCode prescalerTable c

/-- PRE.ENC (R93): the code of a divisor in 1, 2, 4, 8, or InvalidPrescaler; never rounded. -/
def preEnc (p : Nat) : Except OpError (BitVec 2) :=
  match codeOfDivisor prescalerTable p with
  | some c => .ok c
  | none => .error .invalidPrescaler

/-! ### The split prescaler1 code -/

/-- The prescaler1 code of a MUX word (R55 e, R99): `{w[15], w[0]}`, or `{w[0], w[15]}` when `MUX_P1_SWAPPED`. -/
def prescaler1Code (swapped : Bool) (w : Word16) : BitVec 2 :=
  if swapped then w.extractLsb' 0 1 ++ w.extractLsb' 15 1 else w.extractLsb' 15 1 ++ w.extractLsb' 0 1

/-- The bit a prescaler1 code puts at word bit 15 (R53 `P1H`, R99). -/
def prescaler1Bit15 (swapped : Bool) (c : BitVec 2) : BitVec 1 :=
  if swapped then c.extractLsb' 0 1 else c.extractLsb' 1 1

/-- The bit a prescaler1 code puts at word bit 0 (R53 `P1L`, R99). -/
def prescaler1Bit0 (swapped : Bool) (c : BitVec 2) : BitVec 1 :=
  if swapped then c.extractLsb' 1 1 else c.extractLsb' 0 1

end Sys2Proof.Machine
end

