-- ==== Sys2Proof/Machine/Ops.lean ====
section
/-! DEFINITION. The shared operations on the state: raising an error (R138), the caller's locals (R61), the draws (R9), and
the transport's two primitives MemRead and MemWrite over the reference environment (R8, R20, R24, R25, R43, R110). -/

namespace Sys2Proof.Machine

/-! ### Errors and locals -/

/-- RAISING AN ERROR, the one exception entry there is (R138, R121): the operation returns `Err(e)` to its caller, nothing
is saved, the sequence ends and no later line runs. No value is produced: `t`, `r` and `sub` stay (R134, log 13). There
is no return operation (R139). -/
def State.raise (e : OpError) (s : State) : State := { s with status := .failed e, lines := [] }

/-- `t <- value` (R61). -/
def State.setT (v : Word16) (src : Source) (s : State) : State := { s with t := some ⟨v, src⟩ }

/-- `r <- record` (R61). -/
def State.setR (rec : Record) (s : State) : State := { s with r := some rec }

/-- The result of a direct prescaler call (log 15). -/
def State.setSub (x : SubResult) (s : State) : State := { s with sub := some x }

/-! ### Draws -/

/-- The draw of the next transport call: the environment's next listed answer, else an opaque one (R9, log 6). -/
def State.nextDraw (s : State) : Draw :=
  match s.draws with
  | d :: _ => d
  | [] => Config.draw s.drawCount

/-- The state after a draw has been used: a listed answer is dropped, else the index of the opaque ones moves on. -/
def State.useDraw (s : State) : State :=
  { s with draws := s.draws.tail, drawCount := if s.draws.isEmpty then s.drawCount + 1 else s.drawCount }

/-- Appends a wire tuple to the record of transfers (R62, log 18). -/
def State.log (x : Transfer) (s : State) : State := { s with wire := s.wire ++ [x] }

/-! ### Persistence -/

/-- What the rules say of the EEPROM copy when a register is written. -/
inductive Persistence where
  /-- Written at once. -/
  | always
  /-- Left alone. -/
  | never
  /-- Not stated: a draw. -/
  | either
deriving DecidableEq, Repr

/-- R24: a write of MUX or DIV persists exactly when the WC bit is 0; a write of BUS persists when the old and the new WC
bit are 0, does not when both are 1, and else is a draw (R117, D19, log 9). -/
def persistence (x : RegId) (oldBus : Byte) (v : Word16) : Persistence :=
  match x with
  | .div => if wcBit oldBus then .never else .always
  | .mux => if wcBit oldBus then .never else .always
  | .bus =>
    match wcBit oldBus, v.getLsbD 3 with
    | false, false => .always
    | true, true => .never
    | _, _ => .either

/-- The draw's choice for the EEPROM copy of one register. -/
def nvTakes (d : Draw) : RegId → Bool
  | .div => d.nvDiv
  | .mux => d.nvMux
  | .bus => d.nvBus

/-- The registers after a write of v to x: the new value; after a FAILED write the old or the new one, by the draw
(R20, R43, D18, log 8). -/
def regAfterWrite (d : Draw) (x : RegId) (v : Word16) (g : Regs) : Regs :=
  if d.fails && !d.regNew then g else g.put x v

/-- The EEPROM copy after a write of v to x (R24); after a FAILED write the old or the new one, by the draw and whatever the
WC bit is (D18 "`nv[id]` likewise", log 8). -/
def nvAfterWrite (d : Draw) (x : RegId) (v : Word16) (oldBus : Byte) (nv : Regs) : Regs :=
  if d.fails then (if nvTakes d x then nv.put x v else nv)
  else
    match persistence x oldBus v with
    | .never => nv
    | .always => nv.put x v
    | .either => if nvTakes d x then nv.put x v else nv

/-- The EEPROM copy after E2W: the registers (R25, R120); after a FAILED one each of the three copies is old or new, by
the draw (D18, log 8). -/
def nvAfterE2W (d : Draw) (g nv : Regs) : Regs :=
  { bus := if d.fails && !d.nvBus then nv.bus else g.bus
    mux := if d.fails && !d.nvMux then nv.mux else g.mux
    div := if d.fails && !d.nvDiv then nv.div else g.div }

/-! ### The two primitives -/

/-- What an access of the register space answers: a result and the state after it, or a refusal (R31, R37, D11). -/
inductive Access (α : Type) where
  | done (res : Except OpError α) (s : State)
  | refused (why : Refusal)

/-- `MemRead(id, n)` (R8, R110): the payload bytes in transmission order, or IoError. A failed read changes nothing in the
device (D18); a read has no side effect (R39). -/
def memRead (id : Byte) (n : Nat) (s : State) : Access (List Byte) :=
  match RegId.ofId id with
  | none => .refused (.unknownRegister id)
  | some x =>
    if n = x.len then
      let d := s.nextDraw
      let bytes := payloadOf x (readValue x s.reg d.reserved)
      .done (if d.fails then .error .ioError else .ok bytes)
        (s.useDraw.log ⟨.read, id, if d.fails then none else some bytes, !d.fails⟩)
    else .refused (.wrongPayloadWidth id n)

/-- `MemWrite(id, n, bytes)` (R8, R110) to a register or, for the id 0x3F and no bytes, the EEPROM-write trigger (R120). -/
def memWrite (id : Byte) (n : Nat) (bytes : List Byte) (s : State) : Access Unit :=
  let d := s.nextDraw
  let res : Except OpError Unit := if d.fails then .error .ioError else .ok ()
  let logged := s.useDraw.log ⟨.write, id, some bytes, !d.fails⟩
  if id = cmdE2W then
    if n = 0 ∧ bytes = [] then .done res { logged with nv := nvAfterE2W d s.reg s.nv }
    else .refused (.wrongPayloadWidth id n)
  else
    match RegId.ofId id with
    | none => .refused (.unknownRegister id)
    | some x =>
      if n = x.len ∧ bytes.length = n then
        let v := valueOfPayload bytes
        .done res { logged with
          reg := regAfterWrite d x v s.reg
          nv := nvAfterWrite d x v s.reg.bus s.nv }
      else .refused (.wrongPayloadWidth id n)

/-! ### RD, WR, E2W -/

/-- `RD X`: `t <- value of MemRead(id_X, len_X)`, or IoError (R61, R111 to R113); only on a configured handle (R153). -/
def readRegister (x : RegId) (s : State) : Host.Outcome State Fault Refusal :=
  if s.handle = .configured then
    match memRead x.id x.len s with
    | .refused why => .refused why
    | .done res s' =>
      .next (match res with
        | .ok bytes => s'.setT (valueOfPayload bytes) (.read x)
        | .error e => s'.raise e)
  else .refused .handleNotConfigured

/-- What follows a transfer that returns nothing: go on, or end the sequence with its error (R43, R138). -/
def State.afterWrite (res : Except OpError Unit) (s : State) : State :=
  match res with
  | .ok _ => s
  | .error e => s.raise e

/-- `WR X`: `MemWrite(id_X, len_X, bytes of t)`, or IoError (R61, R115 to R117); `t` must come from `X.ENC` (U2, log 11). -/
def writeRegister (x : RegId) (s : State) : Host.Outcome State Fault Refusal :=
  if s.handle = .configured then
    match s.t with
    | none => .refused .wireValueMissing
    | some w =>
      if w.source = .encoded x then
        match memWrite x.id x.len (payloadOf x w.value) s with
        | .refused why => .refused why
        | .done res s' => .next (s'.afterWrite res)
      else .refused .operandNotEncoded
  else .refused .handleNotConfigured

/-- `E2W`: `MemWrite(0x3F, 0, [])`, or IoError (R120). -/
def triggerEepromWrite (s : State) : Host.Outcome State Fault Refusal :=
  if s.handle = .configured then
    match memWrite cmdE2W 0 [] s with
    | .refused why => .refused why
    | .done res s' => .next (s'.afterWrite res)
  else .refused .handleNotConfigured

/-! ### DEC and ENC -/

/-- `DEC X`: `r <- X.DEC(t)` for a total decode function (R61); refused while `t` has no value (R152). Any `t` is a value
of the shared 16-bit port (R28, log 10). -/
def decodeInto (f : Word16 → Record) (s : State) : Host.Outcome State Fault Refusal :=
  match s.t with
  | none => .refused .wireValueMissing
  | some w => .next (s.setR (f w.value))

/-- The end of `ENC X`: `t <- word`, or the error, with no word (R61, R134). -/
def encodeInto (x : RegId) (res : Except OpError Word16) (s : State) : Host.Outcome State Fault Refusal :=
  .next (match res with
    | .ok w => s.setT w (.encoded x)
    | .error e => s.raise e)

end Sys2Proof.Machine
end

