-- ==== Sys2Proof/Machine/Caller.lean ====
section
/-! DEFINITION. The caller's side: SET and construction of a record (R61, R152), the wrapper's set-up (R153), and the
pseudo-operations GET and UPD (R122, R123). None of these is an operation of the table. -/

namespace Sys2Proof.Machine

/-! ### SET and construction -/

/-- `r.f <- v` (R61); none where the record has no such field. -/
def FieldSet.apply (f : FieldSet) (rec : Record) : Option Record :=
  match f, rec with
  | .address v, .bus b => some (.bus { b with address := v })
  | .writeControl v, .bus b => some (.bus { b with writeControl := v })
  | .n v, .div _ => some (.div { n := v })
  | .pdn1 v, .mux m => some (.mux { m with pdn1 := v })
  | .pdn0 v, .mux m => some (.mux { m with pdn0 := v })
  | .sel0 v, .mux m => some (.mux { m with sel0 := v })
  | .en0 v, .mux m => some (.mux { m with en0 := v })
  | .prescaler0 v, .mux m => some (.mux { m with prescaler0 := v })
  | .prescaler1 v, .mux m => some (.mux { m with prescaler1 := v })
  | .div1 v, .mux m => some (.mux { m with div1 := v })
  | _, _ => none

/-- `SET f, v` (R61): a local edit, no hardware operation; refused while `r` has no value (R152). -/
def runSet (f : FieldSet) (s : State) : Host.Outcome State Fault Refusal :=
  match s.r with
  | none => .refused .recordMissing
  | some rec =>
    match f.apply rec with
    | some rec' => .next (s.setR rec')
    | none => .refused .fieldOfOtherRecord

/-- A record constructed by the caller (R152); construction checks nothing, the encode does (R131 to R133). -/
def runMake (rec : Record) (s : State) : Host.Outcome State Fault Refusal := .next (s.setR rec)

/-! ### Set-up of the handle -/

/-- Set-up (1): open the bus device node; a failure is IoError (R135, R153). -/
def runOpen (s : State) : Host.Outcome State Fault Refusal :=
  if s.handle = .closed then
    .next (if s.nextDraw.fails then s.useDraw.raise .ioError else { s.useDraw with handle := .opened })
  else .refused .setupOutOfOrder

/-- Set-up (2): validate the target device address, then bind the handle to it; InvalidAddress outside 0x58..0x5F
(R32, R133, R153). -/
def runBind (target : Nat) (s : State) : Host.Outcome State Fault Refusal :=
  if s.handle = .opened then
    .next (if addressLegal target then { s with devAddr := target, handle := .bound } else s.raise .invalidAddress)
  else .refused .setupOutOfOrder

/-- Set-up (3): configure the handle; a failure is IoError (R135, R153). -/
def runConfigure (s : State) : Host.Outcome State Fault Refusal :=
  if s.handle = .bound then
    .next (if s.nextDraw.fails then s.useDraw.raise .ioError else { s.useDraw with handle := .configured })
  else .refused .setupOutOfOrder

/-! ### Sequences -/

/-- The line that calls an operation (R61). -/
def opLine (i : Instr) : Line := .op i.iface (encode i)

/-- `RD X` (R61). -/
def rdOf : RegId → Instr
  | .div => .rdDiv
  | .mux => .rdMux
  | .bus => .rdBus

/-- `WR X` (R61). -/
def wrOf : RegId → Instr
  | .div => .wrDiv
  | .mux => .wrMux
  | .bus => .wrBus

/-- `DEC X` (R61). -/
def decOf : RegId → Instr
  | .div => .divDec
  | .mux => .muxDec
  | .bus => .busDec

/-- `ENC X` (R61). -/
def encOf : RegId → Instr
  | .div => .divEnc
  | .mux => .muxEnc
  | .bus => .busEnc

/-- `GET X` expands to `RD X ; DEC X` (R61, R122). -/
def getLines (x : RegId) : List Line := [opLine (rdOf x), opLine (decOf x)]

/-- `UPD X, f1=v1, ..., fk=vk` expands to `RD X ; DEC X ; SET f1, v1 ; ... ; SET fk, vk ; ENC X ; WR X` (R61, R123). -/
def updLines (x : RegId) (fs : List FieldSet) : List Line :=
  getLines x ++ fs.map .set ++ [opLine (encOf x), opLine (wrOf x)]

/-- The set-up of R153 in its order, bound to a target device address; `defaultDevAddr` unless overridden (R26). -/
def setupLines (target : Nat) : List Line := [.openHandle, .bindHandle target, .configureHandle]

/-- The caller issues a sequence from outside, as a new invocation: no handle, the default device address, no value in `t`,
`r` or `sub` (R26, R139, R152, log 24). The device's registers and EEPROM copy stay. -/
def State.invoke (lines : List Line) (s : State) : State :=
  { s with lines := lines, status := .running, handle := .closed, devAddr := defaultDevAddr, t := none, r := none, sub := none }

end Sys2Proof.Machine
end

