-- ==== Sys2Proof/Machine/Bus.lean ====
section
/-! DEFINITION. The BUS codec: BUS.DEC and BUS.ENC (40_bus_codec.md). -/

namespace Sys2Proof.Machine

/-- BUS.DEC (R70): `(byte & 0x07) | 0x58`, and `write_control` is true exactly when bit 3 is 0 (R71). Bits 7..4 are
ignored. -/
def busDec (b : Byte) : BusRegister where
  address := (0x58#8 ||| (b.extractLsb' 0 3).setWidth 8).toNat
  writeControl := !wcBit b

/-- BUS.ENC (R72): the range check first (C6, D7, log 25), then `{0000, wc, address[2:0]}`. -/
def busEnc (b : BusRegister) : Except OpError Byte :=
  if addressLegal b.address then
    .ok (0b0000#4 ++ (if b.writeControl then 0#1 else 1#1) ++ BitVec.ofNat 3 b.address)
  else .error .invalidAddress

/-- BUS.DEC on `t` (R61, R70): BUS uses bits 7..0 of the wire value only (R28). -/
def execBusDec (s : State) : Host.Outcome State Fault Refusal :=
  decodeInto (fun w => .bus (busDec (w.extractLsb' 0 8))) s

/-- BUS.ENC on `r` (R61, R72): the byte drives bits 7..0 of the wire value, bits 15..8 are 0 (R28). -/
def execBusEnc (s : State) : Host.Outcome State Fault Refusal :=
  match s.r with
  | none => .refused .recordMissing
  | some (.bus b) => encodeInto .bus ((busEnc b).map fun v => v.setWidth 16) s
  | some (.mux _) => .refused .recordOfOtherRegister
  | some (.div _) => .refused .recordOfOtherRegister

end Sys2Proof.Machine
end

