-- ==== Sys2Proof/Machine/Div.lean ====
section
/-! DEFINITION. The DIV codec: DIV.DEC and DIV.ENC (41_div_codec.md), in the layout of conflict C1 (log 23). -/

namespace Sys2Proof.Machine

/-- DIV.DEC (R81): `v = {w[7:0], w[15:14]}`, `n = v + 2`. Bits 13..8 are ignored. -/
def divDec (w : Word16) : DivRegister where
  n := (w.extractLsb' 0 8 ++ w.extractLsb' 14 2).toNat + nOffset

/-- The word of a stored 10-bit value (R83): `{v[1:0], 000000, v[9:2]}`. -/
def divWord (v : BitVec 10) : Word16 := v.extractLsb' 0 2 ++ 0b000000#6 ++ v.extractLsb' 2 8

/-- DIV.ENC (R83): the range check first, so `n - 2` cannot underflow (R85); never clamped. -/
def divEnc (d : DivRegister) : Except OpError Word16 :=
  if d.n < nMin ∨ nMax < d.n then .error .invalidDivisor
  else .ok (divWord (BitVec.ofNat 10 (d.n - nOffset)))

/-- DIV.DEC on `t` (R61, R81). -/
def execDivDec (s : State) : Host.Outcome State Fault Refusal :=
  decodeInto (fun w => .div (divDec w)) s

/-- DIV.ENC on `r` (R61, R83). -/
def execDivEnc (s : State) : Host.Outcome State Fault Refusal :=
  match s.r with
  | none => .refused .recordMissing
  | some (.div d) => encodeInto .div (divEnc d) s
  | some (.bus _) => .refused .recordOfOtherRegister
  | some (.mux _) => .refused .recordOfOtherRegister

end Sys2Proof.Machine
end

