-- ==== Sys2Proof/Machine/Mux.lean ====
section
/-! DEFINITION. The MUX codec and the prescaler sub-functions: PRE.DEC, PRE.ENC, MUX.DEC, MUX.ENC (42_mux_codec.md). -/

namespace Sys2Proof.Machine

/-- MUX.DEC (R95), the prescaler1 code assembled by the switch of R99. Bits 13..7 are ignored. -/
def muxDec (swapped : Bool) (w : Word16) : MuxRegister where
  pdn1 := w.getLsbD 6
  pdn0 := w.getLsbD 5
  sel0 := w.getLsbD 4
  en0 := w.getLsbD 3
  prescaler0 := preDec (w.extractLsb' 1 2)
  prescaler1 := preDec (prescaler1Code swapped w)
  div1 := w.getLsbD 14

/-- The word of MUX.ENC once both codes are known (R97): bit 15 and bit 0 hold the prescaler1 code, bit 14 div1, bits 13..7
are 0, then pdn1, pdn0, sel0, en0 and the prescaler0 code. -/
def muxWord (swapped : Bool) (m : MuxRegister) (c0 c1 : BitVec 2) : Word16 :=
  prescaler1Bit15 swapped c1 ++ BitVec.ofBool m.div1 ++ 0b0000000#7 ++ BitVec.ofBool m.pdn1 ++ BitVec.ofBool m.pdn0
    ++ BitVec.ofBool m.sel0 ++ BitVec.ofBool m.en0 ++ c0 ++ prescaler1Bit0 swapped c1

/-- MUX.ENC (R97): prescaler0 is checked before prescaler1 (D12), and no word exists on an error (R134). -/
def muxEnc (swapped : Bool) (m : MuxRegister) : Except OpError Word16 :=
  match preEnc m.prescaler0 with
  | .error e => .error e
  | .ok c0 =>
    match preEnc m.prescaler1 with
    | .error e => .error e
    | .ok c1 => .ok (muxWord swapped m c0 c1)

/-- MUX.DEC on `t` (R61, R95). -/
def execMuxDec (s : State) : Host.Outcome State Fault Refusal :=
  decodeInto (fun w => .mux (muxDec s.p1Swapped w)) s

/-- MUX.ENC on `r` (R61, R97). -/
def execMuxEnc (s : State) : Host.Outcome State Fault Refusal :=
  match s.r with
  | none => .refused .recordMissing
  | some (.mux m) => encodeInto .mux (muxEnc s.p1Swapped m) s
  | some (.bus _) => .refused .recordOfOtherRegister
  | some (.div _) => .refused .recordOfOtherRegister

/-- PRE.DEC called directly (R91): the divisor goes to the caller (log 15). -/
def execPreDec (code : BitVec 2) (s : State) : Host.Outcome State Fault Refusal :=
  .next (s.setSub (.divisor (preDec code)))

/-- PRE.ENC called directly (R93): the code goes to the caller, or InvalidPrescaler ends the sequence (log 15). -/
def execPreEnc (divisor : Nat) (s : State) : Host.Outcome State Fault Refusal :=
  .next (match preEnc divisor with
    | .ok c => s.setSub (.code c)
    | .error e => s.raise e)

end Sys2Proof.Machine
end

