-- ==== Sys2Proof/Machine/Transport.lean ====
section
/-! DEFINITION. The transport operations RD, WR and E2W (43_transactions.md R111 to R120). -/

namespace Sys2Proof.Machine

/-- RD.DIV (R111). -/
def execRdDiv (s : State) : Host.Outcome State Fault Refusal := readRegister .div s

/-- RD.MUX (R112). -/
def execRdMux (s : State) : Host.Outcome State Fault Refusal := readRegister .mux s

/-- RD.BUS (R113). -/
def execRdBus (s : State) : Host.Outcome State Fault Refusal := readRegister .bus s

/-- WR.DIV (R115). -/
def execWrDiv (s : State) : Host.Outcome State Fault Refusal := writeRegister .div s

/-- WR.MUX (R116). -/
def execWrMux (s : State) : Host.Outcome State Fault Refusal := writeRegister .mux s

/-- WR.BUS (R117); the device address is left alone (R26, D22, log 17). -/
def execWrBus (s : State) : Host.Outcome State Fault Refusal := writeRegister .bus s

/-- E2W (R120). -/
def execE2w (s : State) : Host.Outcome State Fault Refusal := triggerEepromWrite s

end Sys2Proof.Machine
end

