-- ==== Sys2Proof/Machine/Dispatch.lean ====
section
/-! DEFINITION. One arm per operation. -/

namespace Sys2Proof.Machine

def exec (i : Instr) (s : State) : Host.Outcome State Fault Refusal :=
  match i with
  | .divDec => Sys2Proof.Machine.execDivDec s
  | .divEnc => Sys2Proof.Machine.execDivEnc s
  | .muxDec => Sys2Proof.Machine.execMuxDec s
  | .muxEnc => Sys2Proof.Machine.execMuxEnc s
  | .busDec => Sys2Proof.Machine.execBusDec s
  | .busEnc => Sys2Proof.Machine.execBusEnc s
  | .preDec code => Sys2Proof.Machine.execPreDec code s
  | .preEnc divisor => Sys2Proof.Machine.execPreEnc divisor s
  | .rdDiv => Sys2Proof.Machine.execRdDiv s
  | .rdMux => Sys2Proof.Machine.execRdMux s
  | .rdBus => Sys2Proof.Machine.execRdBus s
  | .wrDiv => Sys2Proof.Machine.execWrDiv s
  | .wrMux => Sys2Proof.Machine.execWrMux s
  | .wrBus => Sys2Proof.Machine.execWrBus s
  | .e2w => Sys2Proof.Machine.execE2w s

end Sys2Proof.Machine
end

