-- ==== Sys2Proof/Machine/Fetch.lean ====
section
/-! DEFINITION. Running the lines of a sequence in order (R121): the machine's substitute for a fetch (log 1). -/

namespace Sys2Proof.Machine

/-- A call: the bytes are decoded and the operation runs; bytes that spell none are refused by name (R60). -/
def runCall (iface : Interface) (bytes : List Byte) (s : State) : Host.Outcome State Fault Refusal :=
  match decode iface bytes with
  | .instr i => exec i s
  | .error e => .refused (.noSuchOperation e)

/-- One line of a sequence (R61). -/
def runLine (l : Line) (s : State) : Host.Outcome State Fault Refusal :=
  match l with
  | .op iface bytes => runCall iface bytes s
  | .set f => runSet f s
  | .make rec => runMake rec s
  | .openHandle => runOpen s
  | .bindHandle target => runBind target s
  | .configureHandle => runConfigure s

/-- One step of a running sequence (R121): the first remaining line leaves the list and runs; a sequence with no line left
has ended without error and is a success. -/
def advance (s : State) : Host.Outcome State Fault Refusal :=
  match s.lines with
  | [] => .next { s with status := .success }
  | l :: rest => runLine l { s with lines := rest }

/-- The state in which a call is the next line of a running sequence. A transport call needs the handle of R153. -/
def State.placeCall (iface : Interface) (bytes : List Byte) (s : State) : State :=
  { s with
    lines := .op iface bytes :: s.lines
    status := .running
    handle := if iface = .transport then .configured else s.handle }

end Sys2Proof.Machine
end

