-- ==== Sys2Proof/Machine/Step.lean ====
section
/-! DEFINITION. One step of the machine, and the placing of a bare table word. -/

namespace Sys2Proof.Machine

/-- One step: a running sequence runs its next line (R121); with no sequence running nothing happens, since nothing acts
but the caller (R27, R140, log 19). -/
def step (s : State) : Host.Outcome State Fault Refusal :=
  match s.status with
  | .running => advance s
  | .idle => .next s
  | .success => .next s
  | .failed _ => .next s

/-- The state whose very next step runs the operation of a bare table word (log 1, 2). -/
def State.withFetchWord (s : State) (nbits w : Nat) : State :=
  s.placeCall (tableCall nbits w).1 (tableCall nbits w).2

end Sys2Proof.Machine
end

