-- ==== Sys2Proof/Machine/Ports.lean ====
section
/-! DEFINITION. The bit-level port list of the codec block (R28, D1, D4): a combinational function of the inputs of one
operation. No clock, no reset, no state; the step does not use it (log 22). -/

namespace Sys2Proof.Machine

/-- The field-side signals `f_*` of R28, one bus per direction. -/
structure FieldPorts where
  address : BitVec 8
  writeControl : BitVec 1
  n : BitVec 16
  pdn1 : BitVec 1
  pdn0 : BitVec 1
  sel0 : BitVec 1
  en0 : BitVec 1
  div1 : BitVec 1
  prescaler0 : BitVec 8
  prescaler1 : BitVec 8
deriving DecidableEq, Repr

/-- The inputs of R28. -/
structure PortIn where
  opSel : Select9
  wireIn : Word16
  f : FieldPorts
deriving DecidableEq, Repr

/-- The outputs of R28. -/
structure PortOut where
  f : FieldPorts
  wireOut : Word16
  err : BitVec 3
  valid : BitVec 1
deriving DecidableEq, Repr

/-- The BusRegister on the input signals. -/
def FieldPorts.bus (f : FieldPorts) : BusRegister := { address := f.address.toNat, writeControl := f.writeControl == 1#1 }

/-- The DivRegister on the input signals. -/
def FieldPorts.div (f : FieldPorts) : DivRegister := { n := f.n.toNat }

/-- The MuxRegister on the input signals. -/
def FieldPorts.mux (f : FieldPorts) : MuxRegister where
  pdn1 := f.pdn1 == 1#1
  pdn0 := f.pdn0 == 1#1
  sel0 := f.sel0 == 1#1
  en0 := f.en0 == 1#1
  prescaler0 := f.prescaler0.toNat
  prescaler1 := f.prescaler1.toNat
  div1 := f.div1 == 1#1

/-- The signals of one register driven from a record; the others "carry no meaning" (R28) and keep the free ones. -/
def FieldPorts.drive (free : FieldPorts) : Record → FieldPorts
  | .bus b => { free with address := BitVec.ofNat 8 b.address, writeControl := BitVec.ofBool b.writeControl }
  | .div d => { free with n := BitVec.ofNat 16 d.n }
  | .mux m =>
    { free with
      pdn1 := BitVec.ofBool m.pdn1
      pdn0 := BitVec.ofBool m.pdn0
      sel0 := BitVec.ofBool m.sel0
      en0 := BitVec.ofBool m.en0
      div1 := BitVec.ofBool m.div1
      prescaler0 := BitVec.ofNat 8 m.prescaler0
      prescaler1 := BitVec.ofNat 8 m.prescaler1 }

/-- The outputs of a decode: the register's field signals, `err` 0, `valid` 1; `wire_out` is free (R28). -/
def portDecode (free : PortOut) (rec : Record) : PortOut :=
  { free with f := free.f.drive rec, err := 0#3, valid := 1#1 }

/-- The outputs of an encode: the word, or an error code with `valid` 0 and a free `wire_out` (R28, D6). -/
def portEncode (free : PortOut) (res : Except OpError Word16) : PortOut :=
  match res with
  | .ok w => { free with wireOut := w, err := 0#3, valid := 1#1 }
  | .error e => { free with err := e.code, valid := 0#1 }

/-- The block as R28 draws it. `free` gives every output that carries no meaning its value (D6); on an undefined select
only `valid` has a meaning, 0 (R28, R60). -/
def codecPort (swapped : Bool) (free : PortOut) (i : PortIn) : PortOut :=
  match lookupSelect codecTable i.opSel with
  | some .divDec => portDecode free (.div (divDec i.wireIn))
  | some .muxDec => portDecode free (.mux (muxDec swapped i.wireIn))
  | some .busDec => portDecode free (.bus (busDec (i.wireIn.extractLsb' 0 8)))
  | some .divEnc => portEncode free (divEnc i.f.div)
  | some .muxEnc => portEncode free (muxEnc swapped i.f.mux)
  | some .busEnc => portEncode free ((busEnc i.f.bus).map fun v => v.setWidth 16)
  | _ => { free with valid := 0#1 }

end Sys2Proof.Machine
end

