-- ==== Sys2Proof/Safety.lean ====
section
/-! DEFINITION. What a claim may say of a state: representable records, reserved bits, the invariant of every run, and the
codec as a function of the register. -/

namespace Sys2Proof.Safety

open Sys2Proof.Machine

/-- k steps, stopping at the first refusal: the host's `Core.run` of the machine, written over `State`. -/
def runSteps : Nat → State → Host.Outcome State Fault Refusal
  | 0, s => .next s
  | k + 1, s =>
    match step s with
    | .next s' => runSteps k s'
    | .fault r => .fault r
    | .refused r => .refused r

/-- Whether the next line of a sequence is a call of operation i. -/
def nextLineCalls (i : Instr) (s : State) : Bool :=
  match s.lines with
  | .op iface bytes :: _ => decode iface bytes == .instr i
  | _ => false

/-- None of the next k steps runs operation i. -/
def neverCallsWithin (i : Instr) : Nat → State → Prop
  | 0, _ => True
  | k + 1, s => nextLineCalls i s = false ∧ ∀ s', step s = .next s' → neverCallsWithin i k s'

/-- A record that meets its invariant (R9 "representable", R11, R12, R13). -/
def representable : Record → Bool
  | .bus b => addressLegal b.address
  | .div d => decide (2 ≤ d.n) && decide (d.n ≤ 1025)
  | .mux m => [1, 2, 4, 8].contains m.prescaler0 && [1, 2, 4, 8].contains m.prescaler1

/-- No reserved bit of register x is set in a wire value (R19, R59). -/
def reservedClear (x : RegId) (v : Word16) : Bool := v &&& ~~~x.mask == 0#16

/-- A wire tuple the rules allow (R36, R58, R62): a register or the trigger, the register's payload width, no payload for a
read that failed, and in a write every reserved bit 0 (R19, R59). -/
def transferLegal (x : Transfer) : Bool :=
  match x.rw, x.payload with
  | .read, none => (RegId.ofId x.id).isSome && !x.completed
  | .read, some bytes => (RegId.ofId x.id).any (fun y => bytes.length == y.len) && x.completed
  | .write, none => false
  | .write, some bytes =>
    (x.id == cmdE2W && bytes.isEmpty) ||
      (RegId.ofId x.id).any (fun y => bytes.length == y.len && reservedClear y (valueOfPayload bytes))

/-- A wire value the caller can hold: an encoded one has no reserved bit set, a read one no bit above its width (R19, R37). -/
def wireValueLegal (w : WireValue) : Bool :=
  match w.source with
  | .encoded x => reservedClear x w.value
  | .read x => w.value &&& ~~~x.width == 0#16

/-- The invariant every step keeps. -/
structure Inv (s : State) : Prop where
  /-- The device address lies in 0x58..0x5F (R26). -/
  devAddr : addressLegal s.devAddr = true
  /-- The caller's wire value has no stray bit (R19). -/
  wireValue : ∀ w, s.t = some w → wireValueLegal w = true
  /-- A sequence that is not running has no line left (R121). -/
  ended : s.status ≠ .running → s.lines = []
  /-- Every wire tuple is one the rules allow; so no write ever carries a reserved bit (R19, R36, R59). -/
  wire : ∀ x ∈ s.wire, transferLegal x = true

/-- The decode function of a register on its wire value (R70, R81, R95). -/
def decodeOf (swapped : Bool) (x : RegId) (w : Word16) : Record :=
  match x with
  | .div => .div (divDec w)
  | .mux => .mux (muxDec swapped w)
  | .bus => .bus (busDec (w.extractLsb' 0 8))

/-- The encode function of a register on a record of it (R72, R83, R97). -/
def encodeOf (swapped : Bool) : Record → Except OpError Word16
  | .div d => divEnc d
  | .mux m => muxEnc swapped m
  | .bus b => (busEnc b).map fun v => v.setWidth 16

/-- The field changes of a UPD, in order (R123); none where the record lacks a field. -/
def applyAll : List FieldSet → Record → Option Record
  | [], rec => some rec
  | f :: fs, rec => (f.apply rec).bind (applyAll fs)

/-- The eight codec operations (R1): the block proper, as opposed to the transport. -/
def isCodec : Instr → Bool
  | .divDec => true
  | .divEnc => true
  | .muxDec => true
  | .muxEnc => true
  | .busDec => true
  | .busEnc => true
  | .preDec _ => true
  | .preEnc _ => true
  | .rdDiv => false
  | .rdMux => false
  | .rdBus => false
  | .wrDiv => false
  | .wrMux => false
  | .wrBus => false
  | .e2w => false

end Sys2Proof.Safety
end

