-- ==== Sys2Proof/Certificates/Slice0/Obligations.lean ====
section
/-! DEFINITION. The statements for the provers. They state and prove nothing. Wherever an equation of states is the
conclusion, it is the frame as well: every field not named in the update is unchanged. -/

open Sys2Proof Sys2Proof.Machine Sys2Proof.Safety

/-! ### Spelling -/

/-- Decoding the encoding of a well-formed operation on its own interface gives it back (30_encoding.md R56, R57 and the
SUB rows). The byte layout of a select is the model's (log 3). -/
def Obligations.DecodeInvertsEncode : Prop :=
  ∀ i : Instr, i.wellFormed = true → decode i.iface (encode i) = .instr i

/-- Whatever decodes is well-formed and is spelled in exactly one way: no two byte strings of an interface call one
operation (R56, R57, R60). -/
def Obligations.DecodedCallHasOneSpelling : Prop :=
  ∀ (f : Interface) (bytes : List Byte) (i : Instr), decode f bytes = .instr i →
    i.wellFormed = true ∧ i.iface = f ∧ encode i = bytes

/-- The words written out in the tables of R56 and R57 decode to their rows, low byte first (log 3). -/
def Obligations.SelectWordsDecodeAsTabled : Prop :=
  decode .codec [0b00000001#8, 0b00000000#8] = .instr .divDec ∧ decode .codec [0b00000010#8, 0b00000001#8] = .instr .muxEnc ∧
  decode .codec [0b00001101#8, 0b00000000#8] = .instr .busDec ∧ decode .transport [0b00000001#8, 0b00000000#8] = .instr .rdDiv ∧
  decode .transport [0b00001101#8, 0b00000001#8] = .instr .wrBus ∧ decode .transport [0b00111111#8, 0b00000001#8] = .instr .e2w ∧
  decode .decodePrescaler [0b00000011#8] = .instr (.preDec 0b11#2) ∧ decode .encodePrescaler [0b00001000#8] = .instr (.preEnc 8)

/-- R60: every select outside the two tables is refused by name, in any running state; never a no-op. -/
def Obligations.UndefinedSelectsAreRefused : Prop :=
  (∀ (s : State) (rest : List Line) (sel : Select9), s.status = .running → s.lines = .op .codec (bytesOfSelect sel) :: rest →
      sel ∉ [0x001#9, 0x002#9, 0x00D#9, 0x101#9, 0x102#9, 0x10D#9] →
      step s = .refused (.noSuchOperation (.undefinedSelect .codec sel))) ∧
  (∀ (s : State) (rest : List Line) (sel : Select9), s.status = .running → s.lines = .op .transport (bytesOfSelect sel) :: rest →
      sel ∉ [0x001#9, 0x002#9, 0x00D#9, 0x101#9, 0x102#9, 0x10D#9, 0x13F#9] →
      step s = .refused (.noSuchOperation (.undefinedSelect .transport sel)))

/-! ### The step -/

/-- When the next line of a running sequence is a call whose bytes decode, step is exec of the decoded operation on the
state with that line taken off (R121; the sequence stands in for a fetch, log 1). -/
def Obligations.StepRunsDecodedCall : Prop :=
  ∀ (s : State) (f : Interface) (bytes : List Byte) (rest : List Line) (i : Instr),
    s.status = .running → s.lines = .op f bytes :: rest → decode f bytes = .instr i →
    step s = exec i { s with lines := rest }

/-- The very next step from a state in which a bare table word has been placed runs the operation the decoder reads from that
word, on that state with the placed line taken off (log 1, 2). -/
def Obligations.PlacedTableWordRunsNext : Prop :=
  ∀ (s : State) (nbits w : Nat) (i : Instr), decodeTableWord nbits w = some i →
    step (s.withFetchWord nbits w) = exec i { s.withFetchWord nbits w with lines := s.lines }

/-- R121: a running sequence with no line left has ended without error and is a success; and from a sequence that an error
ended no number of steps changes anything: no later line runs. -/
def Obligations.SequenceEndsOnceAndForAll : Prop :=
  (∀ s : State, s.status = .running → s.lines = [] → step s = .next { s with status := .success }) ∧
  (∀ (s : State) (e : OpError) (k : Nat), s.status = .failed e → runSteps k s = .next s)

/-- R124: the exit code is 0 exactly for a success and 1 exactly for any of the four errors. -/
def Obligations.ExitCodeMirrorsOutcome : Prop :=
  ∀ st : Status, (st.exitCode = some 0 ↔ st = .success) ∧ (st.exitCode = some 1 ↔ ∃ e : OpError, st = .failed e)

/-! ### The codec's functions, as the rules give them: no state, no sequence -/

/-- R70, R72: BUS.DEC is `0x58 | b[2:0]` and the negation of bit 3, always in 0x58..0x5F; BUS.ENC is the byte
`(address & 7) | (write_control ? 0 : 8)` on an address in 0x58..0x5F and InvalidAddress on every other. -/
def Obligations.BusCodecFunctions : Prop :=
  (∀ b : Byte, busDec b = { address := 0x58 ||| (b.toNat % 8), writeControl := b.getLsbD 3 == false } ∧
    0x58 ≤ 0x58 ||| (b.toNat % 8) ∧ 0x58 ||| (b.toNat % 8) ≤ 0x5F) ∧
  (∀ (a : Nat) (wc : Bool),
    (0x58 ≤ a → a ≤ 0x5F → busEnc ⟨a, wc⟩ = .ok (BitVec.ofNat 8 (a % 8 + if wc then 0 else 8))) ∧
    (a < 0x58 ∨ 0x5F < a → busEnc ⟨a, wc⟩ = .error .invalidAddress))

/-- R81, R83: DIV.DEC is `{w[7:0], w[15:14]} + 2`, always in 2..1025; DIV.ENC is the word
`((v >> 2) & 0xFF) | ((v & 3) << 14)`, v = n - 2, on n in 2..1025 and InvalidDivisor on every other n. -/
def Obligations.DivCodecFunctions : Prop :=
  (∀ w : Word16, divDec w = ⟨(w.toNat % 256) * 4 + w.toNat / 16384 + 2⟩ ∧ 2 ≤ (divDec w).n ∧ (divDec w).n ≤ 1025) ∧
  (∀ n : Nat,
    (2 ≤ n → n ≤ 1025 → divEnc ⟨n⟩ = .ok (BitVec.ofNat 16 ((n - 2) / 4 + (n - 2) % 4 * 16384))) ∧
    (n < 2 ∨ 1025 < n → divEnc ⟨n⟩ = .error .invalidDivisor))

/-- R91, R93: PRE.DEC is the table 0, 1, 2, 3 to 1, 2, 4, 8; PRE.ENC is the table read back, and InvalidPrescaler on every
divisor outside it, never a rounded one. -/
def Obligations.PrescalerFunctions : Prop :=
  (preDec 0b00#2 = 1 ∧ preDec 0b01#2 = 2 ∧ preDec 0b10#2 = 4 ∧ preDec 0b11#2 = 8) ∧
  (preEnc 1 = .ok 0b00#2 ∧ preEnc 2 = .ok 0b01#2 ∧ preEnc 4 = .ok 0b10#2 ∧ preEnc 8 = .ok 0b11#2) ∧
  (∀ p : Nat, p ∉ [1, 2, 4, 8] → preEnc p = .error .invalidPrescaler)

/-- R95, R97, R99: MUX.DEC takes each Boolean from its bit and each prescaler from its code; MUX.ENC places them back, with 0
in bits 13..7, and raises InvalidPrescaler exactly on a prescaler outside 1, 2, 4, 8. The prescaler1 code is bits 15
and 0, bit 15 high; with the switch set, bit 0 high. -/
def Obligations.MuxCodecFunctions : Prop :=
  (∀ (swapped : Bool) (w : Word16), muxDec swapped w = {
      pdn1 := w.getLsbD 6
      pdn0 := w.getLsbD 5
      sel0 := w.getLsbD 4
      en0 := w.getLsbD 3
      prescaler0 := 2 ^ (2 * (w.getLsbD 2).toNat + (w.getLsbD 1).toNat)
      prescaler1 :=
        if swapped then 2 ^ (2 * (w.getLsbD 0).toNat + (w.getLsbD 15).toNat)
        else 2 ^ (2 * (w.getLsbD 15).toNat + (w.getLsbD 0).toNat)
      div1 := w.getLsbD 14 }) ∧
  (∀ (swapped : Bool) (m : MuxRegister) (c0 c1 : BitVec 2), m.prescaler0 = 2 ^ c0.toNat → m.prescaler1 = 2 ^ c1.toNat →
    ∃ w : Word16, muxEnc swapped m = .ok w ∧
      w.getLsbD 15 = c1.getLsbD (if swapped then 0 else 1) ∧ w.getLsbD 14 = m.div1 ∧
      (∀ k, 7 ≤ k → k ≤ 13 → w.getLsbD k = false) ∧
      w.getLsbD 6 = m.pdn1 ∧ w.getLsbD 5 = m.pdn0 ∧ w.getLsbD 4 = m.sel0 ∧ w.getLsbD 3 = m.en0 ∧
      w.getLsbD 2 = c0.getLsbD 1 ∧ w.getLsbD 1 = c0.getLsbD 0 ∧
      w.getLsbD 0 = c1.getLsbD (if swapped then 1 else 0)) ∧
  (∀ (swapped : Bool) (m : MuxRegister), m.prescaler0 ∉ [1, 2, 4, 8] ∨ m.prescaler1 ∉ [1, 2, 4, 8] →
    muxEnc swapped m = .error .invalidPrescaler)

/-- R34: the first transmitted byte of MUX and DIV is bits 7..0 of the word and the second is bits 15..8, in both directions. -/
def Obligations.FirstByteIsLowByte : Prop :=
  (∀ (x : RegId) (w : Word16), x ≠ .bus →
    payloadOf x w = [BitVec.ofNat 8 w.toNat, BitVec.ofNat 8 (w.toNat / 256)] ∧ valueOfPayload (payloadOf x w) = w) ∧
  (∀ (x : RegId) (b1 b2 : Byte), x ≠ .bus →
    (valueOfPayload [b1, b2]).toNat = b2.toNat * 256 + b1.toNat ∧ payloadOf x (valueOfPayload [b1, b2]) = [b1, b2])

/-! ### BUS -/

/-- R70: BUS.DEC completes and gives `0x58 | b[2:0]` and the negation of bit 3, b being bits 7..0 of `t` (R28 "bits 15..8
ignored"); nothing else changes; the address always lies in 0x58..0x5F. -/
def Obligations.BusDecResult : Prop :=
  ∀ (s : State) (w : Word16) (src : Source), s.t = some ⟨w, src⟩ →
    exec .busDec s =
      .next { s with r := some (.bus { address := 0x58 ||| (w.toNat % 8), writeControl := w.getLsbD 3 == false }) } ∧
    0x58 ≤ 0x58 ||| (w.toNat % 8) ∧ 0x58 ||| (w.toNat % 8) ≤ 0x5F

/-- R72: BUS.ENC completes on every address in 0x58..0x5F, with the byte `(address & 7) | (write_control ? 0 : 8)` in `t` and
nothing else changed; on every other address it raises InvalidAddress and changes only the outcome and the remaining
lines (how an error ends the sequence is log 13). -/
def Obligations.BusEncResult : Prop :=
  ∀ (s : State) (a : Nat) (wc : Bool), s.r = some (.bus ⟨a, wc⟩) →
    (0x58 ≤ a → a ≤ 0x5F →
      exec .busEnc s = .next { s with t := some ⟨BitVec.ofNat 16 (a % 8 + if wc then 0 else 8), .encoded .bus⟩ }) ∧
    (a < 0x58 ∨ 0x5F < a → exec .busEnc s = .next { s with status := .failed .invalidAddress, lines := [] })

/-- R73: the round-trip laws of the BUS codec. -/
def Obligations.BusRoundTrip : Prop :=
  (∀ (a : Nat) (wc : Bool), 0x58 ≤ a → a ≤ 0x5F → ∃ b, busEnc ⟨a, wc⟩ = .ok b ∧ busDec b = ⟨a, wc⟩) ∧
  (∀ b : Byte, busEnc (busDec b) = .ok (b &&& 0x0F#8))

/-! ### DIV -/

/-- R81: DIV.DEC completes with `n = {w[7:0], w[15:14]} + 2`, which lies in 2..1025; nothing else changes. -/
def Obligations.DivDecResult : Prop :=
  ∀ (s : State) (w : Word16) (src : Source), s.t = some ⟨w, src⟩ →
    exec .divDec s = .next { s with r := some (.div ⟨(w.toNat % 256) * 4 + w.toNat / 16384 + 2⟩) } ∧
    2 ≤ (w.toNat % 256) * 4 + w.toNat / 16384 + 2 ∧ (w.toNat % 256) * 4 + w.toNat / 16384 + 2 ≤ 1025

/-- R83: DIV.ENC completes on every n in 2..1025 with the word `((v >> 2) & 0xFF) | ((v & 3) << 14)`, v = n - 2, and changes
nothing else; on every other n it raises InvalidDivisor (how an error ends the sequence is log 13). -/
def Obligations.DivEncResult : Prop :=
  ∀ (s : State) (n : Nat), s.r = some (.div ⟨n⟩) →
    (2 ≤ n → n ≤ 1025 →
      exec .divEnc s = .next { s with
        t := some ⟨BitVec.ofNat 16 ((n - 2) / 4 + (n - 2) % 4 * 16384), .encoded .div⟩ }) ∧
    (n < 2 ∨ 1025 < n → exec .divEnc s = .next { s with status := .failed .invalidDivisor, lines := [] })

/-- R84: the round-trip laws of the DIV codec, with injectivity and the inverse on words whose reserved bits are clear. -/
def Obligations.DivRoundTrip : Prop :=
  (∀ n : Nat, 2 ≤ n → n ≤ 1025 → ∃ w, divEnc ⟨n⟩ = .ok w ∧ divDec w = ⟨n⟩) ∧
  (∀ w : Word16, divEnc (divDec w) = .ok (w &&& 0xC0FF#16)) ∧
  (∀ (n m : Nat) (w : Word16), divEnc ⟨n⟩ = .ok w → divEnc ⟨m⟩ = .ok w → n = m) ∧
  (∀ w : Word16, w &&& 0x3F00#16 = 0#16 → divEnc (divDec w) = .ok w)

/-! ### MUX and the prescaler table -/

/-- R91, R54: PRE.DEC completes on every code, with the divisor of the table's row and nothing else changed. That the
divisor is put into `sub` is the model's choice (log 15). -/
def Obligations.PreDecResult : Prop :=
  ∀ s : State,
    exec (.preDec 0b00#2) s = .next { s with sub := some (.divisor 1) } ∧
    exec (.preDec 0b01#2) s = .next { s with sub := some (.divisor 2) } ∧
    exec (.preDec 0b10#2) s = .next { s with sub := some (.divisor 4) } ∧
    exec (.preDec 0b11#2) s = .next { s with sub := some (.divisor 8) }

/-- R93: PRE.ENC completes on 1, 2, 4 and 8 with the code of the row; on every other divisor it raises InvalidPrescaler and
never rounds. That the code is put into `sub` and that a direct call's error ends the sequence are the model's choices
(log 13, 15). -/
def Obligations.PreEncResult : Prop :=
  ∀ s : State,
    exec (.preEnc 1) s = .next { s with sub := some (.code 0b00#2) } ∧
    exec (.preEnc 2) s = .next { s with sub := some (.code 0b01#2) } ∧
    exec (.preEnc 4) s = .next { s with sub := some (.code 0b10#2) } ∧
    exec (.preEnc 8) s = .next { s with sub := some (.code 0b11#2) } ∧
    (∀ p : Nat, p ≠ 1 → p ≠ 2 → p ≠ 4 → p ≠ 8 →
      exec (.preEnc p) s = .next { s with status := .failed .invalidPrescaler, lines := [] })

/-- R94: the prescaler laws. -/
def Obligations.PrescalerRoundTrip : Prop :=
  (∀ p ∈ [1, 2, 4, 8], ∃ c, preEnc p = .ok c ∧ preDec c = p) ∧ (∀ c : BitVec 2, preEnc (preDec c) = .ok c)

/-- R95: MUX.DEC completes with each Boolean from its bit and each prescaler from its code; prescaler1's code has bit 15
high and bit 0 low, or bit 0 high and bit 15 low when the switch of R99 is set; nothing else changes. -/
def Obligations.MuxDecResult : Prop :=
  ∀ (s : State) (w : Word16) (src : Source), s.t = some ⟨w, src⟩ →
    exec .muxDec s = .next { s with r := some (.mux {
      pdn1 := w.getLsbD 6
      pdn0 := w.getLsbD 5
      sel0 := w.getLsbD 4
      en0 := w.getLsbD 3
      prescaler0 := 2 ^ (2 * (w.getLsbD 2).toNat + (w.getLsbD 1).toNat)
      prescaler1 :=
        if s.p1Swapped then 2 ^ (2 * (w.getLsbD 0).toNat + (w.getLsbD 15).toNat)
        else 2 ^ (2 * (w.getLsbD 15).toNat + (w.getLsbD 0).toNat)
      div1 := w.getLsbD 14 }) }

/-- R97: MUX.ENC completes on every record whose prescalers are in 1, 2, 4, 8: bit by bit the word of the rule, with bits 15
and 0 exchanged when the switch of R99 is set, and nothing else changed. -/
def Obligations.MuxEncResult : Prop :=
  ∀ (s : State) (m : MuxRegister) (c0 c1 : BitVec 2), s.r = some (.mux m) →
    m.prescaler0 = 2 ^ c0.toNat → m.prescaler1 = 2 ^ c1.toNat →
    ∃ w : Word16, exec .muxEnc s = .next { s with t := some ⟨w, .encoded .mux⟩ } ∧
      w.getLsbD 15 = c1.getLsbD (if s.p1Swapped then 0 else 1) ∧ w.getLsbD 14 = m.div1 ∧
      (∀ k, 7 ≤ k → k ≤ 13 → w.getLsbD k = false) ∧
      w.getLsbD 6 = m.pdn1 ∧ w.getLsbD 5 = m.pdn0 ∧ w.getLsbD 4 = m.sel0 ∧ w.getLsbD 3 = m.en0 ∧
      w.getLsbD 2 = c0.getLsbD 1 ∧ w.getLsbD 1 = c0.getLsbD 0 ∧
      w.getLsbD 0 = c1.getLsbD (if s.p1Swapped then 1 else 0)

/-- R132: a record with a prescaler outside 1, 2, 4, 8, in either field or both, makes MUX.ENC raise InvalidPrescaler under
either setting of the switch; no word is produced: `t` is unchanged (how an error ends the sequence is log 13). -/
def Obligations.MuxEncRaisesInvalidPrescaler : Prop :=
  ∀ (s : State) (m : MuxRegister), s.r = some (.mux m) →
    m.prescaler0 ∉ [1, 2, 4, 8] ∨ m.prescaler1 ∉ [1, 2, 4, 8] →
    exec .muxEnc s = .next { s with status := .failed .invalidPrescaler, lines := [] }

/-- R99: with `MUX_P1_SWAPPED` true the codec is the default one with bits 15 and 0 of the word exchanged, and nothing else
changes: on decode the record, on encode the word. -/
def Obligations.SwappedCodecExchangesBits15And0 : Prop :=
  ∀ w w' : Word16, w'.getLsbD 15 = w.getLsbD 0 → w'.getLsbD 0 = w.getLsbD 15 →
    (∀ k, 1 ≤ k → k ≤ 14 → w'.getLsbD k = w.getLsbD k) →
    muxDec true w = muxDec false w' ∧ (∀ m : MuxRegister, muxEnc true m = .ok w ↔ muxEnc false m = .ok w')

/-- R98: the round-trip laws of the MUX codec under both settings of the switch, with injectivity and the inverse on words
whose reserved bits are clear. -/
def Obligations.MuxRoundTrip : Prop :=
  ∀ swapped : Bool,
    (∀ m : MuxRegister, m.prescaler0 ∈ [1, 2, 4, 8] → m.prescaler1 ∈ [1, 2, 4, 8] →
      ∃ w, muxEnc swapped m = .ok w ∧ muxDec swapped w = m) ∧
    (∀ w : Word16, muxEnc swapped (muxDec swapped w) = .ok (w &&& 0xC07F#16)) ∧
    (∀ (m m' : MuxRegister) (w : Word16), muxEnc swapped m = .ok w → muxEnc swapped m' = .ok w → m = m') ∧
    (∀ w : Word16, w &&& 0x3F80#16 = 0#16 → muxEnc swapped (muxDec swapped w) = .ok w)

/-! ### The codec as a whole -/

/-- R59: reserved bits are zero on write and ignored on read, and every wire value of the three formats decodes to a
representable record: no wire value is illegal. -/
def Obligations.ReservedBitsZeroOnWriteIgnoredOnRead : Prop :=
  ∀ (swapped : Bool) (x : RegId) (w w' : Word16),
    representable (decodeOf swapped x w) = true ∧
    (w &&& x.mask = w' &&& x.mask → decodeOf swapped x w = decodeOf swapped x w') ∧
    encodeOf swapped (decodeOf swapped x w) = .ok (w &&& x.mask) ∧
    (∀ rec v, encodeOf swapped rec = .ok v →
      match rec with
      | .bus _ => v &&& 0xFFF0#16 = 0#16
      | .mux _ => v &&& 0x3F80#16 = 0#16
      | .div _ => v &&& 0x3F00#16 = 0#16)

/-- R10: the result of a codec operation is a function of its inputs alone. Two states that agree on the operands and the
switch, whatever their registers, EEPROM copies, handles and histories, give the same values and the same outcome. -/
def Obligations.CodecResultDependsOnInputsOnly : Prop :=
  ∀ (i : Instr) (s u s' : State), isCodec i = true → s.t = u.t → s.r = u.r → s.sub = u.sub → s.status = u.status →
    s.p1Swapped = u.p1Swapped → exec i s = .next s' →
    ∃ u', exec i u = .next u' ∧ s'.t = u'.t ∧ s'.r = u'.r ∧ s'.sub = u'.sub ∧ s'.status = u'.status

/-- R30: the codec operations reach no address space. A codec operation leaves the registers, the EEPROM copy, the device
address, the handle, the wire and the draws as they are, and raises no IoError. -/
def Obligations.CodecNeverTouchesTransport : Prop :=
  ∀ (i : Instr) (s s' : State), isCodec i = true → exec i s = .next s' →
    s'.reg = s.reg ∧ s'.nv = s.nv ∧ s'.devAddr = s.devAddr ∧ s'.handle = s.handle ∧ s'.wire = s.wire ∧
    s'.draws = s.draws ∧ s'.drawCount = s.drawCount ∧ s'.p1Swapped = s.p1Swapped ∧
    (s'.status = s.status ∨ s'.status = .failed .invalidDivisor ∨ s'.status = .failed .invalidPrescaler ∨
      s'.status = .failed .invalidAddress)

/-- R134: an operation of the codec that raises produces no value at all, and nothing the caller or the device holds
changes; run on for any number of steps, no write starts and the registers are exactly as they were. -/
def Obligations.CodecErrorPrecedesAnyEffect : Prop :=
  ∀ (i : Instr) (s s' : State) (e : OpError) (k : Nat), isCodec i = true → s.status = .running → exec i s = .next s' →
    s'.status = .failed e →
    runSteps k s' = .next s' ∧ s' = { s with status := .failed e, lines := [] }

/-- R28, R136: the block as a combinational port list agrees with the typed functions: a decode drives its register's field
signals with the record, `err` 0 and `valid` 1; an encode drives `wire_out` with the word, or `err` with the code of the
error and `valid` 0; on an undefined select `valid` is 0. Whatever the free outputs are. -/
def Obligations.PortsAgreeWithTypedCodec : Prop :=
  ∀ (swapped : Bool) (free : PortOut) (w : Word16) (f : FieldPorts),
    (let o := codecPort swapped free ⟨0x001#9, w, f⟩
     o.f.n.toNat = (divDec w).n ∧ o.err = 0#3 ∧ o.valid = 1#1) ∧
    (let o := codecPort swapped free ⟨0x002#9, w, f⟩
     o.f.mux = muxDec swapped w ∧ o.err = 0#3 ∧ o.valid = 1#1) ∧
    (let o := codecPort swapped free ⟨0x00D#9, w, f⟩
     o.f.bus = busDec (w.extractLsb' 0 8) ∧ o.err = 0#3 ∧ o.valid = 1#1) ∧
    (let o := codecPort swapped free ⟨0x101#9, w, f⟩
     (∀ v, divEnc f.div = .ok v → o.wireOut = v ∧ o.err = 0#3 ∧ o.valid = 1#1) ∧
     (f.n.toNat < 2 ∨ 1025 < f.n.toNat → o.err = 1#3 ∧ o.valid = 0#1)) ∧
    (let o := codecPort swapped free ⟨0x102#9, w, f⟩
     (∀ v, muxEnc swapped f.mux = .ok v → o.wireOut = v ∧ o.err = 0#3 ∧ o.valid = 1#1) ∧
     (f.prescaler0.toNat ∉ [1, 2, 4, 8] ∨ f.prescaler1.toNat ∉ [1, 2, 4, 8] → o.err = 2#3 ∧ o.valid = 0#1)) ∧
    (let o := codecPort swapped free ⟨0x10D#9, w, f⟩
     (∀ v, busEnc f.bus = .ok v → o.wireOut = v.setWidth 16 ∧ o.err = 0#3 ∧ o.valid = 1#1) ∧
     (f.address.toNat < 0x58 ∨ 0x5F < f.address.toNat → o.err = 3#3 ∧ o.valid = 0#1)) ∧
    (∀ sel : Select9, sel ∉ [0x001#9, 0x002#9, 0x00D#9, 0x101#9, 0x102#9, 0x10D#9] →
      (codecPort swapped free ⟨sel, w, f⟩).valid = 0#1)

/-! ### Reads -/

/-- R111: a read of DIV that the environment lets pass completes: the defined bits of `t` are the register's, bits 13..8 are
the draw's, the two bytes arrive low byte first, and nothing else changes but the draw's being used; one that fails is
an IoError with no payload. -/
def Obligations.RdDivResult : Prop :=
  ∀ s : State, s.handle = .configured →
    (s.nextDraw.fails = false →
      let v := (s.reg.div &&& 0xC0FF#16) ||| (s.nextDraw.reserved &&& 0x3F00#16)
      exec .rdDiv s = .next { s.useDraw with
        t := some ⟨v, .read .div⟩
        wire := s.wire ++ [⟨.read, 0x01#8, some [v.setWidth 8, (v >>> 8).setWidth 8], true⟩] }) ∧
    (s.nextDraw.fails = true →
      exec .rdDiv s = .next { s.useDraw with
        status := .failed .ioError, lines := [], wire := s.wire ++ [⟨.read, 0x01#8, none, false⟩] })

/-- R112: a read of MUX, as RD.DIV; the reserved bits are 13..7. -/
def Obligations.RdMuxResult : Prop :=
  ∀ s : State, s.handle = .configured →
    (s.nextDraw.fails = false →
      let v := (s.reg.mux &&& 0xC07F#16) ||| (s.nextDraw.reserved &&& 0x3F80#16)
      exec .rdMux s = .next { s.useDraw with
        t := some ⟨v, .read .mux⟩
        wire := s.wire ++ [⟨.read, 0x02#8, some [v.setWidth 8, (v >>> 8).setWidth 8], true⟩] }) ∧
    (s.nextDraw.fails = true →
      exec .rdMux s = .next { s.useDraw with
        status := .failed .ioError, lines := [], wire := s.wire ++ [⟨.read, 0x02#8, none, false⟩] })

/-- R113: a read of BUS, one byte; the reserved bits are 7..4. -/
def Obligations.RdBusResult : Prop :=
  ∀ s : State, s.handle = .configured →
    (s.nextDraw.fails = false →
      let v := (s.reg.bus &&& 0x0F#8) ||| (s.nextDraw.reserved.setWidth 8 &&& 0xF0#8)
      exec .rdBus s = .next { s.useDraw with
        t := some ⟨v.setWidth 16, .read .bus⟩
        wire := s.wire ++ [⟨.read, 0x0D#8, some [v], true⟩] }) ∧
    (s.nextDraw.fails = true →
      exec .rdBus s = .next { s.useDraw with
        status := .failed .ioError, lines := [], wire := s.wire ++ [⟨.read, 0x0D#8, none, false⟩] })

/-! ### Writes -/

/-- R115: a write of DIV that the environment lets pass sends the word low byte first, sets the register to it, and persists
it exactly when the WC bit of BUS is 0; nothing else changes. -/
def Obligations.WrDivResult : Prop :=
  ∀ (s : State) (v : Word16), s.handle = .configured → s.t = some ⟨v, .encoded .div⟩ → s.nextDraw.fails = false →
    exec .wrDiv s = .next { s.useDraw with
      reg := { s.reg with div := v }
      nv := if s.reg.bus.getLsbD 3 then s.nv else { s.nv with div := v }
      wire := s.wire ++ [⟨.write, 0x01#8, some [v.setWidth 8, (v >>> 8).setWidth 8], true⟩] }

/-- R116: a write of MUX, as WR.DIV. -/
def Obligations.WrMuxResult : Prop :=
  ∀ (s : State) (v : Word16), s.handle = .configured → s.t = some ⟨v, .encoded .mux⟩ → s.nextDraw.fails = false →
    exec .wrMux s = .next { s.useDraw with
      reg := { s.reg with mux := v }
      nv := if s.reg.bus.getLsbD 3 then s.nv else { s.nv with mux := v }
      wire := s.wire ++ [⟨.write, 0x02#8, some [v.setWidth 8, (v >>> 8).setWidth 8], true⟩] }

/-- R117: a write of BUS that passes sets the register; the EEPROM copy takes the byte when the old and the new WC bit are 0,
keeps its value when both are 1, and else follows the draw. The device address and everything else stay. -/
def Obligations.WrBusResult : Prop :=
  ∀ (s : State) (v : Byte), s.handle = .configured → s.t = some ⟨v.setWidth 16, .encoded .bus⟩ → s.nextDraw.fails = false →
    exec .wrBus s = .next { s.useDraw with
      reg := { s.reg with bus := v }
      nv :=
        if s.reg.bus.getLsbD 3 = false ∧ v.getLsbD 3 = false then { s.nv with bus := v }
        else if s.reg.bus.getLsbD 3 = true ∧ v.getLsbD 3 = true then s.nv
        else if s.nextDraw.nvBus then { s.nv with bus := v } else s.nv
      wire := s.wire ++ [⟨.write, 0x0D#8, some [v], true⟩] }

/-- R120: the EEPROM-write trigger completes with the EEPROM copy equal to the registers and no payload on the wire; nothing
else changes; one that fails is an IoError. -/
def Obligations.E2wResult : Prop :=
  ∀ s : State, s.handle = .configured →
    (s.nextDraw.fails = false →
      exec .e2w s = .next { s.useDraw with nv := s.reg, wire := s.wire ++ [⟨.write, 0x3F#8, some [], true⟩] }) ∧
    (s.nextDraw.fails = true → ∃ nv' : Regs,
      exec .e2w s = .next { s.useDraw with
        nv := nv', status := .failed .ioError, lines := [], wire := s.wire ++ [⟨.write, 0x3F#8, some [], false⟩] } ∧
      (nv'.bus = s.nv.bus ∨ nv'.bus = s.reg.bus) ∧ (nv'.mux = s.nv.mux ∨ nv'.mux = s.reg.mux) ∧
      (nv'.div = s.nv.div ∨ nv'.div = s.reg.div))

/-- R43, D18: a write of any register that fails is an IoError that ends the sequence; the register holds the old or the new
value, its EEPROM copy the old or the new one; every other register, copy and local is unchanged. That the two choices
are independent is the model's reading (log 8). -/
def Obligations.FailedWriteLeavesOldOrNew : Prop :=
  ∀ (s : State) (v : Word16) (x : RegId) (i : Instr), (x, i) ∈ [(.div, .wrDiv), (.mux, .wrMux), (.bus, .wrBus)] →
    s.handle = .configured → s.t = some ⟨v, .encoded x⟩ → s.nextDraw.fails = true →
    ∃ reg' nv' : Regs,
      exec i s = .next { s.useDraw with
        reg := reg', nv := nv', status := .failed .ioError, lines := []
        wire := s.wire ++ [⟨.write, x.id, some (payloadOf x v), false⟩] } ∧
      (reg' = s.reg ∨ reg' = s.reg.put x v) ∧ (nv' = s.nv ∨ nv' = s.nv.put x v)

/-- R40: for each register, a read that passes returns, in the register's defined bits, the value left by the latest earlier
successful write to it, whatever runs in between, as long as none of it writes that register, and whatever the reserved
bits read as. Where no write went before, it returns what the register held: from power-on, the power-on value. -/
def Obligations.ReadReturnsLatestWrite : Prop :=
  ∀ (x : RegId) (wr rd : Instr), (x, wr, rd) ∈ [(.div, .wrDiv, .rdDiv), (.mux, .wrMux, .rdMux), (.bus, .wrBus, .rdBus)] →
    (∀ (s s₁ s₂ s₃ : State) (w : WireValue) (k : Nat), s.t = some w → exec wr s = .next s₁ → s₁.status = .running →
      neverCallsWithin wr k s₁ → runSteps k s₁ = .next s₂ → exec rd s₂ = .next s₃ → s₃.status = .running →
      ∃ v : WireValue, s₃.t = some v ∧ v.source = .read x ∧ v.value &&& x.mask = w.value &&& x.mask) ∧
    (∀ (s s₂ s₃ : State) (k : Nat), neverCallsWithin wr k s → runSteps k s = .next s₂ → exec rd s₂ = .next s₃ →
      s₃.status = .running →
      ∃ v : WireValue, s₃.t = some v ∧ v.source = .read x ∧ v.value &&& x.mask = s.reg.value x &&& x.mask)

/-- R39: writing the same value to a register twice leaves the registers as after the first write. -/
def Obligations.WritingTwiceIsWritingOnce : Prop :=
  ∀ (wr : Instr) (s s₁ s₂ : State), wr ∈ [.wrDiv, .wrMux, .wrBus] → s.status = .running →
    exec wr s = .next s₁ → s₁.status = .running → exec wr s₁ = .next s₂ → s₂.reg = s₁.reg

/-! ### What is refused -/

/-- U2 (R115 to R117): a write whose operand did not come from the matching encode is refused by name, for each register, on a
configured handle; so no value with a reserved bit set can be written. -/
def Obligations.WriteNeedsMatchingEncode : Prop :=
  ∀ (s : State) (w : WireValue) (x : RegId) (i : Instr), (x, i) ∈ [(.div, .wrDiv), (.mux, .wrMux), (.bus, .wrBus)] →
    s.handle = .configured → s.t = some w → w.source ≠ .encoded x → exec i s = .refused .operandNotEncoded

/-- R152, R153: a decode or a write before `t` has a value, an encode before `r` has one, and a transfer before the set-up is
complete are refused by name. -/
def Obligations.UseBeforeValueOrSetUpIsRefused : Prop :=
  (∀ (s : State) (i : Instr), i ∈ [.divDec, .muxDec, .busDec] → s.t = none → exec i s = .refused .wireValueMissing) ∧
  (∀ (s : State) (i : Instr), i ∈ [.wrDiv, .wrMux, .wrBus] → s.handle = .configured → s.t = none →
    exec i s = .refused .wireValueMissing) ∧
  (∀ (s : State) (i : Instr), i ∈ [.divEnc, .muxEnc, .busEnc] → s.r = none → exec i s = .refused .recordMissing) ∧
  (∀ (s : State) (i : Instr), i ∈ [.rdDiv, .rdMux, .rdBus, .wrDiv, .wrMux, .wrBus, .e2w] → s.handle ≠ .configured →
    exec i s = .refused .handleNotConfigured)

/-- R31, R37, D11: an access to an id outside the address map, or of a width other than the register's, is refused by name;
the trigger 0x3F cannot be read and takes no payload. -/
def Obligations.AccessOutsideTheMapIsRefused : Prop :=
  ∀ (s : State) (id : Byte) (n : Nat) (bytes : List Byte),
    (id ∉ [0x01#8, 0x02#8, 0x0D#8] → memRead id n s = .refused (.unknownRegister id)) ∧
    (id ∉ [0x01#8, 0x02#8, 0x0D#8, 0x3F#8] → memWrite id n bytes s = .refused (.unknownRegister id)) ∧
    ((id, n) ∉ [(0x01#8, 2), (0x02#8, 2), (0x0D#8, 1)] → id ∈ [0x01#8, 0x02#8, 0x0D#8] →
      memRead id n s = .refused (.wrongPayloadWidth id n)) ∧
    ((id, n) ∉ [(0x01#8, 2), (0x02#8, 2), (0x0D#8, 1), (0x3F#8, 0)] → id ∈ [0x01#8, 0x02#8, 0x0D#8, 0x3F#8] →
      memWrite id n bytes s = .refused (.wrongPayloadWidth id n))

/-! ### Set-up and sequences -/

/-- R61, R11 to R13: SET on each of the ten fields replaces that field of the caller's record, and nothing else of the record
or of the machine. It is refused by name while there is no record (R152) and where the record has no such field (log 12).
Construction of a record sets `r` alone (R152). -/
def Obligations.SetEditsTheLocalRecordAlone : Prop :=
  ∀ (s : State) (rest : List Line), s.status = .running →
    (∀ b : BusRegister, s.r = some (.bus b) →
      (∀ v, s.lines = .set (.address v) :: rest → step s = .next { s with r := some (.bus { b with address := v }), lines := rest }) ∧
      (∀ v, s.lines = .set (.writeControl v) :: rest → step s = .next { s with r := some (.bus { b with writeControl := v }), lines := rest }) ∧
      (∀ v, s.lines = .set (.n v) :: rest → step s = .refused .fieldOfOtherRecord) ∧
      (∀ v, s.lines = .set (.pdn1 v) :: rest → step s = .refused .fieldOfOtherRecord) ∧
      (∀ v, s.lines = .set (.pdn0 v) :: rest → step s = .refused .fieldOfOtherRecord) ∧
      (∀ v, s.lines = .set (.sel0 v) :: rest → step s = .refused .fieldOfOtherRecord) ∧
      (∀ v, s.lines = .set (.en0 v) :: rest → step s = .refused .fieldOfOtherRecord) ∧
      (∀ v, s.lines = .set (.prescaler0 v) :: rest → step s = .refused .fieldOfOtherRecord) ∧
      (∀ v, s.lines = .set (.prescaler1 v) :: rest → step s = .refused .fieldOfOtherRecord) ∧
      (∀ v, s.lines = .set (.div1 v) :: rest → step s = .refused .fieldOfOtherRecord)) ∧
    (∀ d : DivRegister, s.r = some (.div d) →
      (∀ v, s.lines = .set (.n v) :: rest → step s = .next { s with r := some (.div { d with n := v }), lines := rest }) ∧
      (∀ v, s.lines = .set (.address v) :: rest → step s = .refused .fieldOfOtherRecord) ∧
      (∀ v, s.lines = .set (.writeControl v) :: rest → step s = .refused .fieldOfOtherRecord) ∧
      (∀ v, s.lines = .set (.pdn1 v) :: rest → step s = .refused .fieldOfOtherRecord) ∧
      (∀ v, s.lines = .set (.pdn0 v) :: rest → step s = .refused .fieldOfOtherRecord) ∧
      (∀ v, s.lines = .set (.sel0 v) :: rest → step s = .refused .fieldOfOtherRecord) ∧
      (∀ v, s.lines = .set (.en0 v) :: rest → step s = .refused .fieldOfOtherRecord) ∧
      (∀ v, s.lines = .set (.prescaler0 v) :: rest → step s = .refused .fieldOfOtherRecord) ∧
      (∀ v, s.lines = .set (.prescaler1 v) :: rest → step s = .refused .fieldOfOtherRecord) ∧
      (∀ v, s.lines = .set (.div1 v) :: rest → step s = .refused .fieldOfOtherRecord)) ∧
    (∀ m : MuxRegister, s.r = some (.mux m) →
      (∀ v, s.lines = .set (.pdn1 v) :: rest → step s = .next { s with r := some (.mux { m with pdn1 := v }), lines := rest }) ∧
      (∀ v, s.lines = .set (.pdn0 v) :: rest → step s = .next { s with r := some (.mux { m with pdn0 := v }), lines := rest }) ∧
      (∀ v, s.lines = .set (.sel0 v) :: rest → step s = .next { s with r := some (.mux { m with sel0 := v }), lines := rest }) ∧
      (∀ v, s.lines = .set (.en0 v) :: rest → step s = .next { s with r := some (.mux { m with en0 := v }), lines := rest }) ∧
      (∀ v, s.lines = .set (.prescaler0 v) :: rest → step s = .next { s with r := some (.mux { m with prescaler0 := v }), lines := rest }) ∧
      (∀ v, s.lines = .set (.prescaler1 v) :: rest → step s = .next { s with r := some (.mux { m with prescaler1 := v }), lines := rest }) ∧
      (∀ v, s.lines = .set (.div1 v) :: rest → step s = .next { s with r := some (.mux { m with div1 := v }), lines := rest }) ∧
      (∀ v, s.lines = .set (.address v) :: rest → step s = .refused .fieldOfOtherRecord) ∧
      (∀ v, s.lines = .set (.writeControl v) :: rest → step s = .refused .fieldOfOtherRecord) ∧
      (∀ v, s.lines = .set (.n v) :: rest → step s = .refused .fieldOfOtherRecord)) ∧
    (∀ f, s.r = none → s.lines = .set f :: rest → step s = .refused .recordMissing) ∧
    (∀ rec, s.lines = .make rec :: rest → step s = .next { s with r := some rec, lines := rest })

/-- R153, R135: the set-up, from a closed handle. A failed open is an IoError, with the handle still closed; after an open
that passes, a target outside 0x58..0x5F is an InvalidAddress in the second step, with nothing bound, and a legal one is
bound; a failed configuration is then an IoError, and one that passes leaves the handle configured. The order of the
actions is the spec's own reading (D16), the lines and what a failed one leaves are the model's (log 13, 14). -/
def Obligations.SetUpBindsLegalAddress : Prop :=
  ∀ (s : State) (target : Nat) (rest : List Line) (d₁ d₂ : Draw) (ds : List Draw),
    s.status = .running → s.handle = .closed → s.lines = setupLines target ++ rest → s.draws = d₁ :: d₂ :: ds →
    (d₁.fails = true → runSteps 1 s = .next { s with status := .failed .ioError, lines := [], draws := d₂ :: ds }) ∧
    (d₁.fails = false → target < 0x58 ∨ 0x5F < target →
      runSteps 2 s =
        .next { s with handle := .opened, status := .failed .invalidAddress, lines := [], draws := d₂ :: ds }) ∧
    (d₁.fails = false → 0x58 ≤ target → target ≤ 0x5F → d₂.fails = true →
      runSteps 3 s =
        .next { s with handle := .bound, devAddr := target, status := .failed .ioError, lines := [], draws := ds }) ∧
    (d₁.fails = false → 0x58 ≤ target → target ≤ 0x5F → d₂.fails = false →
      runSteps 3 s =
        .next { s with handle := .configured, devAddr := target, lines := rest, draws := ds })

/-- R122: GET X on a read that passes leaves in `r` the decode of the register's content, for each register and whatever its
reserved bits read as. -/
def Obligations.GetYieldsDecodedRegister : Prop :=
  ∀ (x : RegId) (s : State) (rest : List Line), s.status = .running → s.handle = .configured →
    s.lines = getLines x ++ rest → s.nextDraw.fails = false →
    ∃ s' : State, runSteps 2 s = .next s' ∧
      s'.r = some (decodeOf s.p1Swapped x (s.reg.value x)) ∧ s'.lines = rest ∧ s'.status = .running ∧
      s'.reg = s.reg ∧ s'.nv = s.nv

/-- R123: UPD X with any list of field changes that gives an encodable record, on transfers that pass, ends with the register
holding exactly the changed record: every field not named keeps the value read, the reserved bits are 0 whatever was
read, the other registers are untouched, and the wire carries one read and one write. -/
def Obligations.UpdChangesExactlyTheNamedFields : Prop :=
  ∀ (x : RegId) (fs : List FieldSet) (s : State) (rest : List Line) (d₁ d₂ : Draw) (ds : List Draw) (rec : Record) (w : Word16),
    s.status = .running → s.handle = .configured → s.lines = updLines x fs ++ rest → s.draws = d₁ :: d₂ :: ds →
    d₁.fails = false → d₂.fails = false →
    applyAll fs (decodeOf s.p1Swapped x (s.reg.value x)) = some rec → encodeOf s.p1Swapped rec = .ok w →
    ∃ (s' : State) (bytes : List Byte), runSteps (4 + fs.length) s = .next s' ∧
      s'.status = .running ∧ s'.lines = rest ∧ s'.draws = ds ∧ s'.reg = s.reg.put x w ∧
      decodeOf s.p1Swapped x (s'.reg.value x) = rec ∧ s'.reg.value x &&& ~~~x.mask = 0#16 ∧
      s'.wire = s.wire ++ [⟨.read, x.id, some bytes, true⟩, ⟨.write, x.id, some (payloadOf x w), true⟩]

/-- R123, R134: UPD X whose changed record does not encode ends with that codec error after the encode: the registers and the
EEPROM copy are exactly as they were, the wire carries the read alone, and no later line is left. -/
def Obligations.RefusedUpdWritesNothing : Prop :=
  ∀ (x : RegId) (fs : List FieldSet) (s : State) (rest : List Line) (d : Draw) (ds : List Draw) (rec : Record) (e : OpError),
    s.status = .running → s.handle = .configured → s.lines = updLines x fs ++ rest → s.draws = d :: ds →
    d.fails = false →
    applyAll fs (decodeOf s.p1Swapped x (s.reg.value x)) = some rec → encodeOf s.p1Swapped rec = .error e →
    ∃ (s' : State) (bytes : List Byte), runSteps (3 + fs.length) s = .next s' ∧
      s'.status = .failed e ∧ s'.lines = [] ∧ s'.reg = s.reg ∧ s'.nv = s.nv ∧ s'.draws = ds ∧
      s'.wire = s.wire ++ [⟨.read, x.id, some bytes, true⟩]

/-! ### The whole machine -/

/-- R20 "Nothing else changes `reg`", R23, R24, R25: a step changes a register only when its line is a write, and the EEPROM
copy only when its line is a write or the trigger. -/
def Obligations.OnlyTransfersChangeTheDevice : Prop :=
  ∀ s s' : State, step s = .next s' →
    (s'.reg ≠ s.reg → ∃ bytes rest i, s.lines = .op .transport bytes :: rest ∧ decode .transport bytes = .instr i ∧
      i ∈ [.wrDiv, .wrMux, .wrBus]) ∧
    (s'.nv ≠ s.nv → ∃ bytes rest i, s.lines = .op .transport bytes :: rest ∧ decode .transport bytes = .instr i ∧
      i ∈ [.wrDiv, .wrMux, .wrBus, .e2w])

/-- R26, R99: no step changes the switch, and a step changes the device address only by binding the handle to a target in
0x58..0x5F; in particular a BUS write does not (D22, log 17). -/
def Obligations.OnlyBindingChangesTheDeviceAddress : Prop :=
  ∀ s s' : State, step s = .next s' →
    s'.p1Swapped = s.p1Swapped ∧
    (s'.devAddr ≠ s.devAddr → ∃ rest, s.lines = .bindHandle s'.devAddr :: rest ∧ 0x58 ≤ s'.devAddr ∧ s'.devAddr ≤ 0x5F)

/-- Every step keeps the invariant: a legal device address (R26), no stray bit in the caller's wire value (R19), no line left
once a sequence has ended (R121), and only legal tuples on the wire, so that no write ever carries a reserved bit (R36,
R58, R59). -/
def Obligations.StepKeepsInvariant : Prop :=
  ∀ s s' : State, Inv s → step s = .next s' → Inv s'

/-- The invariant holds at reset; the device address is 0x58 (R26, R152). -/
def Obligations.ResetMeetsInvariant : Prop :=
  Inv State.reset ∧ State.reset.devAddr = 0x58 ∧ State.reset.t = none ∧ State.reset.r = none

/-- R153 "Only then": a set-up action out of its order is refused by name. That it is so refused is the model's choice
(log 14). -/
def Obligations.SetUpOutOfOrderIsRefused : Prop :=
  ∀ (s : State) (rest : List Line), s.status = .running →
    (s.handle ≠ .closed → s.lines = .openHandle :: rest → step s = .refused .setupOutOfOrder) ∧
    (∀ target, s.handle ≠ .opened → s.lines = .bindHandle target :: rest → step s = .refused .setupOutOfOrder) ∧
    (s.handle ≠ .bound → s.lines = .configureHandle :: rest → step s = .refused .setupOutOfOrder)
end

