-- ==== Sys2Proof/Laws/Operands.lean ====
section
/-! SUPPORT. Small lemmas about the operands and the constants, in the arithmetic the claims use. -/

namespace Sys2Proof.Laws

open Sys2Proof.Machine

/-- The legal addresses as a range of numbers (R11, R32). -/
theorem addressLegal_iff (a : Nat) : addressLegal a = true ↔ 0x58 ≤ a ∧ a ≤ 0x5F := by
  show (decide (0x58 ≤ a) && decide (a ≤ 0x5F)) = true ↔ _
  simp

theorem addressLegal_eq_false_iff (a : Nat) : addressLegal a = false ↔ a < 0x58 ∨ 0x5F < a := by
  rw [← Bool.not_eq_true, addressLegal_iff]
  omega

/-- The divisor of a code is 2 to the power of the code (R54). -/
theorem preDec_eq_pow (c : BitVec 2) : preDec c = 2 ^ c.toNat := by revert c; decide

/-- The code of a power of 2 in the table (R54). -/
theorem preEnc_pow (c : BitVec 2) : preEnc (2 ^ c.toNat) = .ok c := by revert c; decide

/-- Everything PRE.ENC can do: the code of a table divisor, or the error for any other (R93). -/
theorem preEnc_cases (p : Nat) :
    (∃ c : BitVec 2, p = 2 ^ c.toNat ∧ preEnc p = .ok c) ∨ (p ∉ [1, 2, 4, 8] ∧ preEnc p = .error .invalidPrescaler) := by
  by_cases h : p ∈ [1, 2, 4, 8]
  · simp only [List.mem_cons, List.not_mem_nil, or_false] at h
    rcases h with rfl | rfl | rfl | rfl
    exacts [.inl ⟨0, rfl, rfl⟩, .inl ⟨1, rfl, rfl⟩, .inl ⟨2, rfl, rfl⟩, .inl ⟨3, rfl, rfl⟩]
  · refine .inr ⟨h, ?_⟩
    simp only [List.mem_cons, List.not_mem_nil, or_false, not_or] at h
    simp [preEnc, codeOfDivisor, prescalerTable, h]

/-- The divisors of the table are 1, 2, 4, 8 (R90). -/
theorem pow_code_mem (c : BitVec 2) : 2 ^ c.toNat ∈ [1, 2, 4, 8] := by revert c; decide

/-- The value of a 2-byte payload is the word it was made of (R34). -/
@[simp] theorem wordOfBytes_bytesOfWord (w : Word16) :
    wordOfBytes (w.extractLsb' 0 8) (w.extractLsb' 8 8) = w := by
  apply BitVec.eq_of_getLsbD_eq
  intro i hi
  simp only [wordOfBytes, BitVec.getLsbD_append, BitVec.getLsbD_extractLsb']
  by_cases h : i < 8
  · simp [h]
  · have h8 : i - 8 < 8 := by omega
    have e : 8 + (i - 8) = i := by omega
    simp [h, h8, e]

/-- A payload spells the value it was made of, in the bits the register has (R34, R36). -/
theorem valueOfPayload_payloadOf (x : RegId) (v : Word16) : valueOfPayload (payloadOf x v) = v &&& x.width := by
  cases x
  · show wordOfBytes _ _ = v &&& 0xFFFF#16
    rw [wordOfBytes_bytesOfWord]
    exact (BitVec.and_allOnes (x := v)).symm
  · show wordOfBytes _ _ = v &&& 0xFFFF#16
    rw [wordOfBytes_bytesOfWord]
    exact (BitVec.and_allOnes (x := v)).symm
  · apply BitVec.eq_of_getLsbD_eq
    intro i hi
    show ((v.extractLsb' 0 8).setWidth 16).getLsbD i = (v &&& 0x00FF#16).getLsbD i
    interval_cases i <;> simp

/-- A register cell holds what was put into it, in the bits the register has. -/
theorem value_put (x : RegId) (v : Word16) (g : Regs) : (g.put x v).value x = v &&& x.width := by
  cases x
  · exact (BitVec.and_allOnes (x := v)).symm
  · exact (BitVec.and_allOnes (x := v)).symm
  · exact valueOfPayload_payloadOf .bus v

/-- Putting a value into one register leaves the others (R20). -/
theorem value_put_of_ne {x y : RegId} (h : y ≠ x) (v : Word16) (g : Regs) : (g.put x v).value y = g.value y := by
  cases x <;> cases y <;> first | rfl | exact absurd rfl h

/-- Only the register's own bits of the value matter. -/
theorem put_and_width (x : RegId) (v : Word16) (g : Regs) : g.put x (v &&& x.width) = g.put x v := by
  cases x
  · show ({ g with div := v &&& 0xFFFF#16 } : Regs) = { g with div := v }
    rw [show v &&& 0xFFFF#16 = v from BitVec.and_allOnes]
  · show ({ g with mux := v &&& 0xFFFF#16 } : Regs) = { g with mux := v }
    rw [show v &&& 0xFFFF#16 = v from BitVec.and_allOnes]
  · show ({ g with bus := (v &&& 0x00FF#16).extractLsb' 0 8 } : Regs) = { g with bus := v.extractLsb' 0 8 }
    congr 1
    apply BitVec.eq_of_getLsbD_eq
    intro i hi
    interval_cases i <;> simp

/-- The second put of a register is the one that counts. -/
theorem put_put (x : RegId) (v w : Word16) (g : Regs) : (g.put x v).put x w = g.put x w := by cases x <;> rfl

/-- A read returns the register's defined bits, whatever the draw (R19, R20). -/
theorem readValue_and_mask (x : RegId) (g : Regs) (reserved : Word16) :
    readValue x g reserved &&& x.mask = g.value x &&& x.mask := by
  apply BitVec.eq_of_getLsbD_eq
  intro i hi
  simp only [readValue, BitVec.getLsbD_and, BitVec.getLsbD_or, BitVec.getLsbD_not, hi, decide_true, Bool.true_and]
  cases x.mask.getLsbD i <;> cases (g.value x).getLsbD i <;> cases reserved.getLsbD i <;> cases x.width.getLsbD i <;> rfl

/-- A read value has no bit above the register's width. -/
theorem readValue_and_width (x : RegId) (g : Regs) (reserved : Word16) :
    readValue x g reserved &&& x.width = readValue x g reserved := by
  have h : x.mask &&& x.width = x.mask := by cases x <;> decide
  apply BitVec.eq_of_getLsbD_eq
  intro i hi
  have hb := congrArg (fun y : Word16 => y.getLsbD i) h
  simp only [BitVec.getLsbD_and] at hb
  simp only [readValue, BitVec.getLsbD_and, BitVec.getLsbD_or, BitVec.getLsbD_not, hi, decide_true, Bool.true_and]
  revert hb
  cases x.mask.getLsbD i <;> cases (g.value x).getLsbD i <;> cases reserved.getLsbD i <;> cases x.width.getLsbD i <;> decide

end Sys2Proof.Laws
end

