-- ==== Sys2Proof/Laws/State.lean ====
section
/-! SUPPORT. The fields of a state after each update: one lemma per field that the update could be thought to touch. -/

namespace Sys2Proof.Laws

open Sys2Proof.Machine

variable (s : State)

/-! ### State.raise -/

@[simp] theorem raise_reg (e : OpError) : (s.raise e).reg = s.reg := rfl
@[simp] theorem raise_nv (e : OpError) : (s.raise e).nv = s.nv := rfl
@[simp] theorem raise_devAddr (e : OpError) : (s.raise e).devAddr = s.devAddr := rfl
@[simp] theorem raise_handle (e : OpError) : (s.raise e).handle = s.handle := rfl
@[simp] theorem raise_wire (e : OpError) : (s.raise e).wire = s.wire := rfl
@[simp] theorem raise_t (e : OpError) : (s.raise e).t = s.t := rfl
@[simp] theorem raise_r (e : OpError) : (s.raise e).r = s.r := rfl
@[simp] theorem raise_sub (e : OpError) : (s.raise e).sub = s.sub := rfl
@[simp] theorem raise_lines (e : OpError) : (s.raise e).lines = [] := rfl
@[simp] theorem raise_status (e : OpError) : (s.raise e).status = .failed e := rfl
@[simp] theorem raise_p1Swapped (e : OpError) : (s.raise e).p1Swapped = s.p1Swapped := rfl
@[simp] theorem raise_draws (e : OpError) : (s.raise e).draws = s.draws := rfl
@[simp] theorem raise_drawCount (e : OpError) : (s.raise e).drawCount = s.drawCount := rfl

/-! ### State.setT -/

@[simp] theorem setT_reg (v : Word16) (src : Source) : (s.setT v src).reg = s.reg := rfl
@[simp] theorem setT_nv (v : Word16) (src : Source) : (s.setT v src).nv = s.nv := rfl
@[simp] theorem setT_devAddr (v : Word16) (src : Source) : (s.setT v src).devAddr = s.devAddr := rfl
@[simp] theorem setT_handle (v : Word16) (src : Source) : (s.setT v src).handle = s.handle := rfl
@[simp] theorem setT_wire (v : Word16) (src : Source) : (s.setT v src).wire = s.wire := rfl
@[simp] theorem setT_t (v : Word16) (src : Source) : (s.setT v src).t = some ⟨v, src⟩ := rfl
@[simp] theorem setT_r (v : Word16) (src : Source) : (s.setT v src).r = s.r := rfl
@[simp] theorem setT_sub (v : Word16) (src : Source) : (s.setT v src).sub = s.sub := rfl
@[simp] theorem setT_lines (v : Word16) (src : Source) : (s.setT v src).lines = s.lines := rfl
@[simp] theorem setT_status (v : Word16) (src : Source) : (s.setT v src).status = s.status := rfl
@[simp] theorem setT_p1Swapped (v : Word16) (src : Source) : (s.setT v src).p1Swapped = s.p1Swapped := rfl
@[simp] theorem setT_draws (v : Word16) (src : Source) : (s.setT v src).draws = s.draws := rfl
@[simp] theorem setT_drawCount (v : Word16) (src : Source) : (s.setT v src).drawCount = s.drawCount := rfl

/-! ### State.setR -/

@[simp] theorem setR_reg (rec : Record) : (s.setR rec).reg = s.reg := rfl
@[simp] theorem setR_nv (rec : Record) : (s.setR rec).nv = s.nv := rfl
@[simp] theorem setR_devAddr (rec : Record) : (s.setR rec).devAddr = s.devAddr := rfl
@[simp] theorem setR_handle (rec : Record) : (s.setR rec).handle = s.handle := rfl
@[simp] theorem setR_wire (rec : Record) : (s.setR rec).wire = s.wire := rfl
@[simp] theorem setR_t (rec : Record) : (s.setR rec).t = s.t := rfl
@[simp] theorem setR_r (rec : Record) : (s.setR rec).r = some rec := rfl
@[simp] theorem setR_sub (rec : Record) : (s.setR rec).sub = s.sub := rfl
@[simp] theorem setR_lines (rec : Record) : (s.setR rec).lines = s.lines := rfl
@[simp] theorem setR_status (rec : Record) : (s.setR rec).status = s.status := rfl
@[simp] theorem setR_p1Swapped (rec : Record) : (s.setR rec).p1Swapped = s.p1Swapped := rfl
@[simp] theorem setR_draws (rec : Record) : (s.setR rec).draws = s.draws := rfl
@[simp] theorem setR_drawCount (rec : Record) : (s.setR rec).drawCount = s.drawCount := rfl

/-! ### State.setSub -/

@[simp] theorem setSub_reg (x : SubResult) : (s.setSub x).reg = s.reg := rfl
@[simp] theorem setSub_nv (x : SubResult) : (s.setSub x).nv = s.nv := rfl
@[simp] theorem setSub_devAddr (x : SubResult) : (s.setSub x).devAddr = s.devAddr := rfl
@[simp] theorem setSub_handle (x : SubResult) : (s.setSub x).handle = s.handle := rfl
@[simp] theorem setSub_wire (x : SubResult) : (s.setSub x).wire = s.wire := rfl
@[simp] theorem setSub_t (x : SubResult) : (s.setSub x).t = s.t := rfl
@[simp] theorem setSub_r (x : SubResult) : (s.setSub x).r = s.r := rfl
@[simp] theorem setSub_sub (x : SubResult) : (s.setSub x).sub = some x := rfl
@[simp] theorem setSub_lines (x : SubResult) : (s.setSub x).lines = s.lines := rfl
@[simp] theorem setSub_status (x : SubResult) : (s.setSub x).status = s.status := rfl
@[simp] theorem setSub_p1Swapped (x : SubResult) : (s.setSub x).p1Swapped = s.p1Swapped := rfl
@[simp] theorem setSub_draws (x : SubResult) : (s.setSub x).draws = s.draws := rfl
@[simp] theorem setSub_drawCount (x : SubResult) : (s.setSub x).drawCount = s.drawCount := rfl

/-! ### State.useDraw -/

@[simp] theorem useDraw_reg : s.useDraw.reg = s.reg := rfl
@[simp] theorem useDraw_nv : s.useDraw.nv = s.nv := rfl
@[simp] theorem useDraw_devAddr : s.useDraw.devAddr = s.devAddr := rfl
@[simp] theorem useDraw_handle : s.useDraw.handle = s.handle := rfl
@[simp] theorem useDraw_wire : s.useDraw.wire = s.wire := rfl
@[simp] theorem useDraw_t : s.useDraw.t = s.t := rfl
@[simp] theorem useDraw_r : s.useDraw.r = s.r := rfl
@[simp] theorem useDraw_sub : s.useDraw.sub = s.sub := rfl
@[simp] theorem useDraw_lines : s.useDraw.lines = s.lines := rfl
@[simp] theorem useDraw_status : s.useDraw.status = s.status := rfl
@[simp] theorem useDraw_p1Swapped : s.useDraw.p1Swapped = s.p1Swapped := rfl
@[simp] theorem useDraw_draws : s.useDraw.draws = s.draws.tail := rfl
@[simp] theorem useDraw_drawCount : s.useDraw.drawCount = if s.draws.isEmpty then s.drawCount + 1 else s.drawCount := rfl

/-! ### State.log -/

@[simp] theorem log_reg (x : Transfer) : (s.log x).reg = s.reg := rfl
@[simp] theorem log_nv (x : Transfer) : (s.log x).nv = s.nv := rfl
@[simp] theorem log_devAddr (x : Transfer) : (s.log x).devAddr = s.devAddr := rfl
@[simp] theorem log_handle (x : Transfer) : (s.log x).handle = s.handle := rfl
@[simp] theorem log_wire (x : Transfer) : (s.log x).wire = s.wire ++ [x] := rfl
@[simp] theorem log_t (x : Transfer) : (s.log x).t = s.t := rfl
@[simp] theorem log_r (x : Transfer) : (s.log x).r = s.r := rfl
@[simp] theorem log_sub (x : Transfer) : (s.log x).sub = s.sub := rfl
@[simp] theorem log_lines (x : Transfer) : (s.log x).lines = s.lines := rfl
@[simp] theorem log_status (x : Transfer) : (s.log x).status = s.status := rfl
@[simp] theorem log_p1Swapped (x : Transfer) : (s.log x).p1Swapped = s.p1Swapped := rfl
@[simp] theorem log_draws (x : Transfer) : (s.log x).draws = s.draws := rfl
@[simp] theorem log_drawCount (x : Transfer) : (s.log x).drawCount = s.drawCount := rfl

/-! ### State.placeCall -/

@[simp] theorem placeCall_reg (i : Interface) (b : List Byte) : (s.placeCall i b).reg = s.reg := rfl
@[simp] theorem placeCall_nv (i : Interface) (b : List Byte) : (s.placeCall i b).nv = s.nv := rfl
@[simp] theorem placeCall_devAddr (i : Interface) (b : List Byte) : (s.placeCall i b).devAddr = s.devAddr := rfl
@[simp] theorem placeCall_handle (i : Interface) (b : List Byte) : (s.placeCall i b).handle = if i = .transport then .configured else s.handle := rfl
@[simp] theorem placeCall_wire (i : Interface) (b : List Byte) : (s.placeCall i b).wire = s.wire := rfl
@[simp] theorem placeCall_t (i : Interface) (b : List Byte) : (s.placeCall i b).t = s.t := rfl
@[simp] theorem placeCall_r (i : Interface) (b : List Byte) : (s.placeCall i b).r = s.r := rfl
@[simp] theorem placeCall_sub (i : Interface) (b : List Byte) : (s.placeCall i b).sub = s.sub := rfl
@[simp] theorem placeCall_lines (i : Interface) (b : List Byte) : (s.placeCall i b).lines = .op i b :: s.lines := rfl
@[simp] theorem placeCall_status (i : Interface) (b : List Byte) : (s.placeCall i b).status = .running := rfl
@[simp] theorem placeCall_p1Swapped (i : Interface) (b : List Byte) : (s.placeCall i b).p1Swapped = s.p1Swapped := rfl
@[simp] theorem placeCall_draws (i : Interface) (b : List Byte) : (s.placeCall i b).draws = s.draws := rfl
@[simp] theorem placeCall_drawCount (i : Interface) (b : List Byte) : (s.placeCall i b).drawCount = s.drawCount := rfl

/-! ### State.invoke -/

@[simp] theorem invoke_reg (ls : List Line) : (s.invoke ls).reg = s.reg := rfl
@[simp] theorem invoke_nv (ls : List Line) : (s.invoke ls).nv = s.nv := rfl
@[simp] theorem invoke_devAddr (ls : List Line) : (s.invoke ls).devAddr = defaultDevAddr := rfl
@[simp] theorem invoke_handle (ls : List Line) : (s.invoke ls).handle = .closed := rfl
@[simp] theorem invoke_wire (ls : List Line) : (s.invoke ls).wire = s.wire := rfl
@[simp] theorem invoke_t (ls : List Line) : (s.invoke ls).t = none := rfl
@[simp] theorem invoke_r (ls : List Line) : (s.invoke ls).r = none := rfl
@[simp] theorem invoke_sub (ls : List Line) : (s.invoke ls).sub = none := rfl
@[simp] theorem invoke_lines (ls : List Line) : (s.invoke ls).lines = ls := rfl
@[simp] theorem invoke_status (ls : List Line) : (s.invoke ls).status = .running := rfl
@[simp] theorem invoke_p1Swapped (ls : List Line) : (s.invoke ls).p1Swapped = s.p1Swapped := rfl
@[simp] theorem invoke_draws (ls : List Line) : (s.invoke ls).draws = s.draws := rfl
@[simp] theorem invoke_drawCount (ls : List Line) : (s.invoke ls).drawCount = s.drawCount := rfl

end Sys2Proof.Laws
end

