-- ==== Sys2Proof/Laws/Ops.lean ====
section
/-! SUPPORT. One lemma per shared operation that says everything it can do; the meanings' proofs cite these and do not
unfold the operations again. -/

namespace Sys2Proof.Laws

open Sys2Proof.Machine

/-! ### Draws and the register map -/

theorem nextDraw_of_cons {s : State} {d : Draw} {ds : List Draw} (h : s.draws = d :: ds) : s.nextDraw = d := by
  simp [State.nextDraw, h]

theorem useDraw_of_cons {s : State} {d : Draw} {ds : List Draw} (h : s.draws = d :: ds) :
    s.useDraw = { s with draws := ds } := by
  simp [State.useDraw, h]

@[simp] theorem ofId_id (x : RegId) : RegId.ofId x.id = some x := by cases x <;> rfl

@[simp] theorem id_ne_cmdE2W (x : RegId) : x.id ≠ cmdE2W := by cases x <;> decide

@[simp] theorem length_payloadOf (x : RegId) (v : Word16) : (payloadOf x v).length = x.len := by cases x <;> rfl

theorem mask_and_width (x : RegId) : x.mask &&& x.width = x.mask := by cases x <;> decide

/-! ### The two primitives -/

/-- Everything `MemRead` of a register at its own width can do. -/
theorem memRead_register (x : RegId) (s : State) :
    memRead x.id x.len s =
      .done (if s.nextDraw.fails then .error .ioError else .ok (payloadOf x (readValue x s.reg s.nextDraw.reserved)))
        (s.useDraw.log ⟨.read, x.id,
          if s.nextDraw.fails then none else some (payloadOf x (readValue x s.reg s.nextDraw.reserved)),
          !s.nextDraw.fails⟩) := by
  simp [memRead]

/-- An access outside the address map is refused (R31, D11). -/
theorem memRead_unknown {id : Byte} (h : RegId.ofId id = none) (n : Nat) (s : State) :
    memRead id n s = .refused (.unknownRegister id) := by
  simp [memRead, h]

/-- A read of another width is refused (R37, D11). -/
theorem memRead_wrong_width {x : RegId} {n : Nat} (h : n ≠ x.len) (s : State) :
    memRead x.id n s = .refused (.wrongPayloadWidth x.id n) := by
  simp [memRead, h]

/-- Everything `MemWrite` of a register with a payload of its width can do. -/
theorem memWrite_register (x : RegId) (v : Word16) (s : State) :
    memWrite x.id x.len (payloadOf x v) s =
      .done (if s.nextDraw.fails then .error .ioError else .ok ())
        { s.useDraw.log ⟨.write, x.id, some (payloadOf x v), !s.nextDraw.fails⟩ with
          reg := regAfterWrite s.nextDraw x (valueOfPayload (payloadOf x v)) s.reg
          nv := nvAfterWrite s.nextDraw x (valueOfPayload (payloadOf x v)) s.reg.bus s.nv } := by
  simp [memWrite]

/-- Everything the EEPROM-write trigger can do. -/
theorem memWrite_e2w (s : State) :
    memWrite cmdE2W 0 [] s =
      .done (if s.nextDraw.fails then .error .ioError else .ok ())
        { s.useDraw.log ⟨.write, cmdE2W, some [], !s.nextDraw.fails⟩ with
          nv := nvAfterE2W s.nextDraw s.reg s.nv } := by
  simp [memWrite]

/-- A write outside the address map is refused (R31, D11). -/
theorem memWrite_unknown {id : Byte} (h : RegId.ofId id = none) (hc : id ≠ cmdE2W) (n : Nat) (bytes : List Byte)
    (s : State) : memWrite id n bytes s = .refused (.unknownRegister id) := by
  simp [memWrite, h, hc]

/-- A write of another width is refused (R37, D11). -/
theorem memWrite_wrong_width {x : RegId} {n : Nat} (h : n ≠ x.len) (bytes : List Byte) (s : State) :
    memWrite x.id n bytes s = .refused (.wrongPayloadWidth x.id n) := by
  simp [memWrite, h]

/-! ### RD, WR, E2W: what each can do when it answers a next state -/

/-- A read that answers has either passed or failed, and says all it did. -/
theorem readRegister_next {x : RegId} {s s' : State} (h : readRegister x s = .next s') :
    s.handle = .configured ∧
    ((s.nextDraw.fails = false ∧
        s' = { s.useDraw with
          t := some ⟨valueOfPayload (payloadOf x (readValue x s.reg s.nextDraw.reserved)), .read x⟩
          wire := s.wire ++ [⟨.read, x.id, some (payloadOf x (readValue x s.reg s.nextDraw.reserved)), true⟩] }) ∨
     (s.nextDraw.fails = true ∧
        s' = { s.useDraw with
          status := .failed .ioError, lines := []
          wire := s.wire ++ [⟨.read, x.id, none, false⟩] })) := by
  unfold readRegister at h
  split at h
  case isFalse => cases h
  case isTrue hc =>
    refine ⟨hc, ?_⟩
    rw [memRead_register] at h
    cases hf : s.nextDraw.fails <;>
      simp [hf, State.setT, State.raise, State.log] at h <;> simp [← h]

/-- A write that answers says all it did. -/
theorem writeRegister_next {x : RegId} {s s' : State} (h : writeRegister x s = .next s') :
    ∃ w, s.handle = .configured ∧ s.t = some w ∧ w.source = .encoded x ∧
      s' = ({ s.useDraw.log ⟨.write, x.id, some (payloadOf x w.value), !s.nextDraw.fails⟩ with
          reg := regAfterWrite s.nextDraw x (valueOfPayload (payloadOf x w.value)) s.reg
          nv := nvAfterWrite s.nextDraw x (valueOfPayload (payloadOf x w.value)) s.reg.bus s.nv } : State).afterWrite
        (if s.nextDraw.fails then .error .ioError else .ok ()) := by
  unfold writeRegister at h
  split at h
  case isFalse => cases h
  case isTrue hc =>
    split at h
    case h_1 => cases h
    case h_2 w ht =>
      split at h
      case isFalse => cases h
      case isTrue hs =>
        rw [memWrite_register] at h
        exact ⟨w, hc, ht, hs, by simpa using h.symm⟩

/-- A trigger that answers says all it did. -/
theorem triggerEepromWrite_next {s s' : State} (h : triggerEepromWrite s = .next s') :
    s.handle = .configured ∧
      s' = ({ s.useDraw.log ⟨.write, cmdE2W, some [], !s.nextDraw.fails⟩ with
          nv := nvAfterE2W s.nextDraw s.reg s.nv } : State).afterWrite
        (if s.nextDraw.fails then .error .ioError else .ok ()) := by
  unfold triggerEepromWrite at h
  split at h
  case isFalse => cases h
  case isTrue hc =>
    rw [memWrite_e2w] at h
    exact ⟨hc, by simpa using h.symm⟩

/-- What follows a write: nothing, or the one error entry. -/
theorem afterWrite_cases (res : Except OpError Unit) (s : State) :
    s.afterWrite res = s ∨ ∃ e, res = .error e ∧ s.afterWrite res = s.raise e := by
  cases res with
  | ok _ => exact .inl rfl
  | error e => exact .inr ⟨e, rfl, rfl⟩

/-- The registers after a write are the old ones or hold the new value; the new value if the write passed (R20, R43). -/
theorem regAfterWrite_cases (d : Draw) (x : RegId) (v : Word16) (g : Regs) :
    (d.fails = true ∧ regAfterWrite d x v g = g) ∨ regAfterWrite d x v g = g.put x v := by
  unfold regAfterWrite
  split
  case isTrue h => exact .inl ⟨by simp_all, rfl⟩
  case isFalse => exact .inr rfl

/-- The EEPROM copy after a write is the old one or holds the new value (R24, R43). -/
theorem nvAfterWrite_cases (d : Draw) (x : RegId) (v : Word16) (oldBus : Byte) (nv : Regs) :
    nvAfterWrite d x v oldBus nv = nv ∨ nvAfterWrite d x v oldBus nv = nv.put x v := by
  unfold nvAfterWrite
  cases d.fails <;> cases persistence x oldBus v <;> cases nvTakes d x <;> simp

/-! ### DEC, ENC -/

/-- A decode that answers had a wire value and set the record alone. -/
theorem decodeInto_next {f : Word16 → Record} {s s' : State} (h : decodeInto f s = .next s') :
    ∃ w, s.t = some w ∧ s' = s.setR (f w.value) := by
  unfold decodeInto at h
  split at h
  case h_1 => cases h
  case h_2 w ht => exact ⟨w, ht, by simpa using h.symm⟩

/-- An encode that answers set the wire value alone, or raised. -/
theorem encodeInto_next {x : RegId} {res : Except OpError Word16} {s s' : State} (h : encodeInto x res s = .next s') :
    (∃ w, res = .ok w ∧ s' = s.setT w (.encoded x)) ∨ (∃ e, res = .error e ∧ s' = s.raise e) := by
  cases res with
  | ok w => exact .inl ⟨w, rfl, by simpa [encodeInto] using h.symm⟩
  | error e => exact .inr ⟨e, rfl, by simpa [encodeInto] using h.symm⟩

/-- The encode operations that answer had a record of their register. -/
theorem execDivEnc_next {s s' : State} (h : execDivEnc s = .next s') :
    ∃ d, s.r = some (.div d) ∧ encodeInto .div (divEnc d) s = .next s' := by
  unfold execDivEnc at h
  split at h <;> first | exact ⟨_, by assumption, h⟩ | cases h

theorem execMuxEnc_next {s s' : State} (h : execMuxEnc s = .next s') :
    ∃ m, s.r = some (.mux m) ∧ encodeInto .mux (muxEnc s.p1Swapped m) s = .next s' := by
  unfold execMuxEnc at h
  split at h <;> first | exact ⟨_, by assumption, h⟩ | cases h

theorem execBusEnc_next {s s' : State} (h : execBusEnc s = .next s') :
    ∃ b, s.r = some (.bus b) ∧ encodeInto .bus ((busEnc b).map fun v => v.setWidth 16) s = .next s' := by
  unfold execBusEnc at h
  split at h <;> first | exact ⟨_, by assumption, h⟩ | cases h

/-- A direct PRE.ENC sets its result or raises. -/
theorem execPreEnc_next {p : Nat} {s s' : State} (h : execPreEnc p s = .next s') :
    (∃ c, preEnc p = .ok c ∧ s' = s.setSub (.code c)) ∨ (∃ e, preEnc p = .error e ∧ s' = s.raise e) := by
  unfold execPreEnc at h
  cases hp : preEnc p with
  | ok c => exact .inl ⟨c, rfl, by simpa [hp] using h.symm⟩
  | error e => exact .inr ⟨e, rfl, by simpa [hp] using h.symm⟩

/-! ### The caller's lines -/

/-- A SET that answers changed the record alone. -/
theorem runSet_next {f : FieldSet} {s s' : State} (h : runSet f s = .next s') :
    ∃ rec rec', s.r = some rec ∧ f.apply rec = some rec' ∧ s' = s.setR rec' := by
  unfold runSet at h
  split at h
  case h_1 => cases h
  case h_2 rec hr =>
    split at h
    case h_1 rec' ha => exact ⟨rec, rec', hr, ha, by simpa using h.symm⟩
    case h_2 => cases h

/-- An opening that answers moved the handle on, or raised. -/
theorem runOpen_next {s s' : State} (h : runOpen s = .next s') :
    s.handle = .closed ∧
      (s' = s.useDraw.raise .ioError ∨ s' = { s.useDraw with handle := .opened }) := by
  unfold runOpen at h
  split at h
  case isFalse => cases h
  case isTrue hc => exact ⟨hc, by cases hf : s.nextDraw.fails <;> simp_all⟩

/-- A binding that answers bound a legal address, or raised on an illegal one. -/
theorem runBind_next {a : Nat} {s s' : State} (h : runBind a s = .next s') :
    s.handle = .opened ∧
      ((addressLegal a = true ∧ s' = { s with devAddr := a, handle := .bound }) ∨
       (addressLegal a = false ∧ s' = s.raise .invalidAddress)) := by
  unfold runBind at h
  split at h
  case isFalse => cases h
  case isTrue hc => exact ⟨hc, by cases ha : addressLegal a <;> simp_all⟩

/-- A configuration that answers moved the handle on, or raised. -/
theorem runConfigure_next {s s' : State} (h : runConfigure s = .next s') :
    s.handle = .bound ∧
      (s' = s.useDraw.raise .ioError ∨ s' = { s.useDraw with handle := .configured }) := by
  unfold runConfigure at h
  split at h
  case isFalse => cases h
  case isTrue hc => exact ⟨hc, by cases hf : s.nextDraw.fails <;> simp_all⟩

/-! ### The step -/

/-- Everything a step can do: nothing when no sequence runs, end the sequence, or run its next line. -/
theorem step_next {s s' : State} (h : step s = .next s') :
    (s.status ≠ .running ∧ s' = s) ∨
    (s.status = .running ∧ s.lines = [] ∧ s' = { s with status := .success }) ∨
    (∃ l rest, s.status = .running ∧ s.lines = l :: rest ∧ runLine l { s with lines := rest } = .next s') := by
  unfold step at h
  cases hs : s.status <;> simp only [hs] at h
  case running =>
    unfold advance at h
    cases hl : s.lines with
    | nil => exact .inr (.inl ⟨rfl, rfl, by simpa [hl] using h.symm⟩)
    | cons l rest => exact .inr (.inr ⟨l, rest, rfl, rfl, by simpa [hl, hs] using h⟩)
  all_goals exact .inl ⟨by simp, by simpa using h.symm⟩

/-- A step of a running sequence runs its next line. -/
theorem step_line {s : State} {l : Line} {rest : List Line} (hs : s.status = .running) (hl : s.lines = l :: rest) :
    step s = runLine l { s with lines := rest } := by
  simp [step, advance, hs, hl]

/-- A SET whose field the record has replaces the record and takes its line off (R61). -/
theorem step_set {s : State} {f : FieldSet} {rec rec' : Record} {rest : List Line} (hs : s.status = .running)
    (hl : s.lines = .set f :: rest) (hr : s.r = some rec) (hf : f.apply rec = some rec') :
    step s = .next { s with r := some rec', lines := rest } := by
  rw [step_line hs hl]
  simp [runLine, runSet, hr, hf, State.setR]

/-- A call that answers decoded to an operation that answers. -/
theorem runCall_next {f : Interface} {bytes : List Byte} {s s' : State} (h : runCall f bytes s = .next s') :
    ∃ i, decode f bytes = .instr i ∧ exec i s = .next s' := by
  unfold runCall at h
  split at h
  case h_1 i hi => exact ⟨i, hi, h⟩
  case h_2 => cases h

end Sys2Proof.Laws
end

