-- ==== Sys2Proof/Laws/PerInstr.lean ====
section
/-! SUPPORT. Statements made for every operation, one lemma per constructor. -/

namespace Sys2Proof.Laws

/-- How many bytes a call takes on an interface: two for a 9-bit select, one for a prescaler call (R50, R56, R57). -/
def callWidth : Interface → Nat
  | .codec => 2
  | .transport => 2
  | .decodePrescaler => 1
  | .encodePrescaler => 1

/-- Every operation's spelling has the width of its interface (R50 "one length per format"). -/
def EncodingWidth.Statement (i : Instr) : Prop := (encode i).length = callWidth i.iface

theorem EncodingWidth.divDec : EncodingWidth.Statement .divDec := rfl
theorem EncodingWidth.divEnc : EncodingWidth.Statement .divEnc := rfl
theorem EncodingWidth.muxDec : EncodingWidth.Statement .muxDec := rfl
theorem EncodingWidth.muxEnc : EncodingWidth.Statement .muxEnc := rfl
theorem EncodingWidth.busDec : EncodingWidth.Statement .busDec := rfl
theorem EncodingWidth.busEnc : EncodingWidth.Statement .busEnc := rfl
theorem EncodingWidth.preDec (code : BitVec 2) : EncodingWidth.Statement (.preDec code) := rfl
theorem EncodingWidth.preEnc (divisor : Nat) : EncodingWidth.Statement (.preEnc divisor) := rfl
theorem EncodingWidth.rdDiv : EncodingWidth.Statement .rdDiv := rfl
theorem EncodingWidth.rdMux : EncodingWidth.Statement .rdMux := rfl
theorem EncodingWidth.rdBus : EncodingWidth.Statement .rdBus := rfl
theorem EncodingWidth.wrDiv : EncodingWidth.Statement .wrDiv := rfl
theorem EncodingWidth.wrMux : EncodingWidth.Statement .wrMux := rfl
theorem EncodingWidth.wrBus : EncodingWidth.Statement .wrBus := rfl
theorem EncodingWidth.e2w : EncodingWidth.Statement .e2w := rfl

end Sys2Proof.Laws
end

