-- ==== Sys2Proof/Laws/Safety.lean ====
section
/-! SUPPORT. The small lemmas of the definitions of Safety.lean, so that no proof over a run unfolds them. -/

namespace Sys2Proof.Laws

open Sys2Proof.Machine Sys2Proof.Safety

@[simp] theorem runSteps_zero (s : State) : runSteps 0 s = .next s := rfl

theorem runSteps_succ {s s' : State} (h : step s = .next s') (k : Nat) : runSteps (k + 1) s = runSteps k s' := by
  simp only [runSteps, h]

/-- A run of k + 1 steps that answers goes through a first step that answers. -/
theorem runSteps_succ_next {s s' : State} {k : Nat} (h : runSteps (k + 1) s = .next s') :
    ∃ u, step s = .next u ∧ runSteps k u = .next s' := by
  unfold runSteps at h
  split at h
  · exact ⟨_, by assumption, h⟩
  · cases h
  · cases h

@[simp] theorem neverCallsWithin_zero (i : Instr) (s : State) : neverCallsWithin i 0 s := trivial

theorem neverCallsWithin_succ {i : Instr} {k : Nat} {s s' : State} (h : neverCallsWithin i (k + 1) s)
    (hs : step s = .next s') : nextLineCalls i s = false ∧ neverCallsWithin i k s' :=
  ⟨h.1, h.2 s' hs⟩

theorem neverCallsWithin_of_step {i : Instr} {k : Nat} {s s' : State} (hl : nextLineCalls i s = false)
    (hs : step s = .next s') (h : neverCallsWithin i k s') : neverCallsWithin i (k + 1) s :=
  ⟨hl, fun u hu => by rw [hs] at hu; cases hu; exact h⟩

/-- A line that is a call of an operation other than i. -/
theorem ne_of_nextLineCalls_eq_false {i j : Instr} {s : State} {f : Interface} {bytes : List Byte} {rest : List Line}
    (h : nextLineCalls i s = false) (hl : s.lines = .op f bytes :: rest) (hd : decode f bytes = .instr j) : j ≠ i := by
  rintro rfl
  simp [nextLineCalls, hl, hd] at h

end Sys2Proof.Laws
end

