-- ==== Sys2Proof/Tests/Slice0.lean ====
section
/-! SUPPORT. Tests: each expected result is a vector of spec/95_test_vectors.md or of the rule named beside it. The witnesses
at the end meet the hypotheses of the statements in Certificates/Slice0/Obligations.lean. -/

namespace Sys2Proof.Tests

open Sys2Proof.Machine Sys2Proof.Safety Sys2Proof.Laws

/-! ### Well-formedness -/

theorem test_wellFormed_refuses_wide_divisor : (Instr.preEnc 256).wellFormed = false := by decide
theorem test_wellFormed_admits_last_divisor : (Instr.preEnc 255).wellFormed = true := by decide

/-! ### Decoding: every operation's word written out from R56, R57 and the SUB rows -/

theorem test_decode_divDec : decode .codec [0b00000001#8, 0b00000000#8] = .instr .divDec := by decide
theorem test_decode_muxDec : decode .codec [0b00000010#8, 0b00000000#8] = .instr .muxDec := by decide
theorem test_decode_busDec : decode .codec [0b00001101#8, 0b00000000#8] = .instr .busDec := by decide
theorem test_decode_divEnc : decode .codec [0b00000001#8, 0b00000001#8] = .instr .divEnc := by decide
theorem test_decode_muxEnc : decode .codec [0b00000010#8, 0b00000001#8] = .instr .muxEnc := by decide
theorem test_decode_busEnc : decode .codec [0b00001101#8, 0b00000001#8] = .instr .busEnc := by decide
theorem test_decode_preDec : decode .decodePrescaler [0b00000010#8] = .instr (.preDec 0b10#2) := by decide
theorem test_decode_preEnc : decode .encodePrescaler [0b00000100#8] = .instr (.preEnc 4) := by decide
theorem test_decode_rdDiv : decode .transport [0b00000001#8, 0b00000000#8] = .instr .rdDiv := by decide
theorem test_decode_rdMux : decode .transport [0b00000010#8, 0b00000000#8] = .instr .rdMux := by decide
theorem test_decode_rdBus : decode .transport [0b00001101#8, 0b00000000#8] = .instr .rdBus := by decide
theorem test_decode_wrDiv : decode .transport [0b00000001#8, 0b00000001#8] = .instr .wrDiv := by decide
theorem test_decode_wrMux : decode .transport [0b00000010#8, 0b00000001#8] = .instr .wrMux := by decide
theorem test_decode_wrBus : decode .transport [0b00001101#8, 0b00000001#8] = .instr .wrBus := by decide
theorem test_decode_e2w : decode .transport [0b00111111#8, 0b00000001#8] = .instr .e2w := by decide

/-- A read of the command id is no operation (R60). -/
theorem test_decode_refuses_read_of_command :
    decode .transport [0x3F#8, 0x00#8] = .error (.undefinedSelect .transport 0x03F#9) := by decide
theorem test_decode_refuses_tenth_bit : decode .codec [0x01#8, 0x02#8] = .error (.malformed .codec [0x01#8, 0x02#8]) := by decide
theorem test_tableWord_e2w : decodeTableWord 16 0x13F = some .e2w := by decide

/-! ### A small state -/

/-- A transport call that passes; reserved bits read as in program 1 of 95_test_vectors.md. -/
def passing : Draw := { fails := false, reserved := 0x2A00#16, regNew := false, nvBus := true, nvMux := false, nvDiv := false }

/-- A transport call that fails, the new value having reached the register. -/
def failing : Draw := { fails := true, reserved := 0#16, regNew := true, nvBus := false, nvMux := false, nvDiv := false }

/-- A running sequence on a configured handle, WC bit 1, two calls that will pass. -/
def demo : State where
  reg := { bus := 0x08#8, mux := 0x802A#16, div := 0x80F9#16 }
  nv := { bus := 0x08#8, mux := 0x0000#16, div := 0x0000#16 }
  devAddr := 0x58
  handle := .configured
  wire := []
  t := none
  r := none
  sub := none
  lines := []
  status := .running
  p1Swapped := false
  draws := [passing, passing]
  drawCount := 0

/-- `demo` with a wire value in `t`. -/
def withT (v : Word16) (src : Source) : State := { demo with t := some ⟨v, src⟩ }

/-- `demo` with a record in `r`. -/
def withR (rec : Record) : State := { demo with r := some rec }

/-- The base record B of 95_test_vectors.md section 4. -/
def muxB : MuxRegister :=
  { pdn1 := false, pdn0 := false, sel0 := false, en0 := false, prescaler0 := 1, prescaler1 := 1, div1 := false }

/-- The state after, if there is one. -/
def after (o : Host.Outcome State Fault Refusal) : Option State :=
  match o with
  | .next s => some s
  | .fault _ => none
  | .refused _ => none

/-! ### The codec (95_test_vectors.md sections 2 to 4) -/

theorem test_busDec_0x0A : (after (exec .busDec (withT 0x0A#16 (.read .bus)))).map (·.r) = some (some (.bus ⟨0x5A, false⟩)) := by decide
theorem test_busDec_0xA2 : (after (exec .busDec (withT 0xA2#16 (.read .bus)))).map (·.r) = some (some (.bus ⟨0x5A, true⟩)) := by decide
theorem test_busEnc_0x5A : (after (exec .busEnc (withR (.bus ⟨0x5A, false⟩)))).map (·.t) = some (some ⟨0x0A#16, .encoded .bus⟩) := by decide
theorem test_busEnc_refuses_alias_0x62 : (after (exec .busEnc (withR (.bus ⟨0x62, true⟩)))).map (·.status) = some (.failed .invalidAddress) := by decide
theorem test_divDec_0xABCD : (after (exec .divDec (withT 0xABCD#16 (.read .div)))).map (·.r) = some (some (.div ⟨824⟩)) := by decide
theorem test_divDec_0x0080 : (after (exec .divDec (withT 0x0080#16 (.read .div)))).map (·.r) = some (some (.div ⟨514⟩)) := by decide
theorem test_divEnc_1000 : (after (exec .divEnc (withR (.div ⟨1000⟩)))).map (·.t) = some (some ⟨0x80F9#16, .encoded .div⟩) := by decide
theorem test_divEnc_refuses_1026 : (after (exec .divEnc (withR (.div ⟨1026⟩)))).map (·.status) = some (.failed .invalidDivisor) := by decide
theorem test_muxDec_0x7FFF : (after (exec .muxDec (withT 0x7FFF#16 (.read .mux)))).map (·.r)
    = some (some (.mux ⟨true, true, true, true, 8, 2, true⟩)) := by decide
theorem test_muxDec_0x7FFF_swapped : (after (exec .muxDec { withT 0x7FFF#16 (.read .mux) with p1Swapped := true })).map (·.r)
    = some (some (.mux ⟨true, true, true, true, 8, 4, true⟩)) := by decide
theorem test_muxEnc_mixed : (after (exec .muxEnc (withR (.mux ⟨false, true, false, true, 2, 4, false⟩)))).map (·.t)
    = some (some ⟨0x802A#16, .encoded .mux⟩) := by decide
theorem test_muxEnc_refuses_prescaler_3 : (after (exec .muxEnc (withR (.mux { muxB with prescaler0 := 3 })))).map (·.status)
    = some (.failed .invalidPrescaler) := by decide
theorem test_preDec_11 : (after (exec (.preDec 0b11#2) demo)).map (·.sub) = some (some (.divisor 8)) := by decide
theorem test_preEnc_4 : (after (exec (.preEnc 4) demo)).map (·.sub) = some (some (.code 0b10#2)) := by decide
theorem test_preEnc_refuses_5 : (after (exec (.preEnc 5) demo)).map (·.status) = some (.failed .invalidPrescaler) := by decide

/-- R136: n = 1026 is error code 1. -/
theorem test_errCode_invalidDivisor : errCode (divEnc ⟨1026⟩) = 1#3 := by decide

/-! ### The transport (95_test_vectors.md section 5) -/

theorem test_rdDiv_value : (after (exec .rdDiv demo)).map (·.t) = some (some ⟨0xAAF9#16, .read .div⟩) := by decide
theorem test_rdDiv_bytes : (after (exec .rdDiv demo)).map (·.wire) = some [⟨.read, 0x01#8, some [0xF9#8, 0xAA#8], true⟩] := by decide
theorem test_rdMux_value : (after (exec .rdMux demo)).map (·.t) = some (some ⟨0xAA2A#16, .read .mux⟩) := by decide
theorem test_rdBus_failure : (after (exec .rdBus { demo with draws := [failing] })).map (fun s => (s.status, s.wire, s.t))
    = some (.failed .ioError, [⟨.read, 0x0D#8, none, false⟩], none) := by decide
theorem test_wrDiv_bytes : (after (exec .wrDiv (withT 0xC0FF#16 (.encoded .div)))).map (fun s => (s.wire, s.reg.div, s.nv.div))
    = some ([⟨.write, 0x01#8, some [0xFF#8, 0xC0#8], true⟩], 0xC0FF#16, 0x0000#16) := by decide
theorem test_wrMux_persists_with_wc_0 :
    (after (exec .wrMux { withT 0x407F#16 (.encoded .mux) with reg := { demo.reg with bus := 0x00#8 } })).map (fun s => s.nv.mux)
    = some 0x407F#16 := by decide
theorem test_wrBus_draw_decides : (after (exec .wrBus (withT 0x02#16 (.encoded .bus)))).map (fun s => (s.reg.bus, s.nv.bus, s.devAddr))
    = some (0x02#8, 0x02#8, 0x58) := by decide
theorem test_wrBus_refused_after_read : exec .wrBus (withT 0x02#16 (.read .bus)) = .refused .operandNotEncoded := rfl
theorem test_e2w_copies : (after (exec .e2w demo)).map (fun s => (s.nv, s.wire)) = some (demo.reg, [⟨.write, 0x3F#8, some [], true⟩]) := by decide
theorem test_e2w_failure : (after (exec .e2w { demo with draws := [failing] })).map (fun s => (s.nv, s.status)) = some (demo.nv, .failed .ioError) := by decide

/-! ### Witnesses: states and operands that meet the hypotheses of the statements -/

/-- `demo` with a list of remaining lines. -/
def withLines (ls : List Line) : State := { demo with lines := ls }

theorem witness_DecodeInvertsEncode : (Instr.preEnc 255).wellFormed = true ∧ Instr.e2w.wellFormed = true := by decide
theorem witness_DecodedCallHasOneSpelling : decode .transport [0x3F#8, 0x01#8] = .instr .e2w ∧
    decode .encodePrescaler [0xFF#8] = .instr (.preEnc 255) := by decide
theorem witness_UndefinedSelectsAreRefused :
    ((withLines [.op .codec (bytesOfSelect 0x13F#9)]).status = .running ∧
      0x13F#9 ∉ [0x001#9, 0x002#9, 0x00D#9, 0x101#9, 0x102#9, 0x10D#9]) ∧
    ((withLines [.op .transport (bytesOfSelect 0x03F#9)]).status = .running ∧
      0x03F#9 ∉ [0x001#9, 0x002#9, 0x00D#9, 0x101#9, 0x102#9, 0x10D#9, 0x13F#9]) := by decide
theorem witness_StepRunsDecodedCall : (withLines [.op .transport [0x01#8, 0x00#8]]).status = .running ∧
    (withLines [.op .transport [0x01#8, 0x00#8]]).lines = [.op .transport [0x01#8, 0x00#8]] ∧
    decode .transport [0x01#8, 0x00#8] = .instr .rdDiv := by decide
theorem witness_PlacedTableWordRunsNext : decodeTableWord 16 0x001 = some .rdDiv ∧ decodeTableWord 8 255 = some (.preEnc 255) ∧
    decodeTableWord 8 3 = some (.preDec 3#2) := by decide
theorem witness_SequenceEndsOnceAndForAll : (demo.status = .running ∧ demo.lines = []) ∧
    ({ demo with status := .failed .ioError } : State).status = .failed .ioError := by decide
theorem witness_BusCodecFunctions : (0x58 ≤ 0x58 ∧ 0x58 ≤ 0x5F) ∧ (0x58 ≤ 0x5F ∧ 0x5F ≤ 0x5F) ∧ 0x57 < 0x58 ∧ 0x5F < 0x60 := by decide
theorem witness_DivCodecFunctions : (2 ≤ 2 ∧ 2 ≤ 1025) ∧ (2 ≤ 1025 ∧ 1025 ≤ 1025) ∧ 1 < 2 ∧ 1025 < 1026 := by decide
theorem witness_PrescalerFunctions : 0 ∉ [1, 2, 4, 8] ∧ 3 ∉ [1, 2, 4, 8] ∧ 16 ∉ [1, 2, 4, 8] := by decide
theorem witness_MuxCodecFunctions : muxB.prescaler0 = 2 ^ (0b00#2).toNat ∧ muxB.prescaler1 = 2 ^ (0b00#2).toNat ∧
    ({ muxB with prescaler0 := 5 } : MuxRegister).prescaler0 ∉ [1, 2, 4, 8] ∧
    ({ muxB with prescaler1 := 16 } : MuxRegister).prescaler1 ∉ [1, 2, 4, 8] := by decide
theorem witness_FirstByteIsLowByte : RegId.div ≠ .bus ∧ RegId.mux ≠ .bus := by decide
theorem witness_BusDecResult : (withT 0xFF#16 (.read .bus)).t = some ⟨0xFF#16, .read .bus⟩ := rfl
theorem witness_BusEncResult :
    ((withR (.bus ⟨0x58, true⟩)).r = some (.bus ⟨0x58, true⟩) ∧ 0x58 ≤ 0x58 ∧ 0x58 ≤ 0x5F) ∧
    ((withR (.bus ⟨0x5F, false⟩)).r = some (.bus ⟨0x5F, false⟩) ∧ 0x58 ≤ 0x5F ∧ 0x5F ≤ 0x5F) ∧
    ((withR (.bus ⟨0x57, true⟩)).r = some (.bus ⟨0x57, true⟩) ∧ 0x57 < 0x58) ∧
    ((withR (.bus ⟨0x60, true⟩)).r = some (.bus ⟨0x60, true⟩) ∧ 0x5F < 0x60) := by decide
theorem witness_BusRoundTrip : (0x58 ≤ 0x58 ∧ 0x58 ≤ 0x5F) ∧ (0x58 ≤ 0x5F ∧ 0x5F ≤ 0x5F) := by decide
theorem witness_DivDecResult : (withT 0xFFFF#16 (.read .div)).t = some ⟨0xFFFF#16, .read .div⟩ := rfl
theorem witness_DivEncResult :
    ((withR (.div ⟨2⟩)).r = some (.div ⟨2⟩) ∧ 2 ≤ 2 ∧ 2 ≤ 1025) ∧ ((withR (.div ⟨1025⟩)).r = some (.div ⟨1025⟩) ∧ 2 ≤ 1025 ∧ 1025 ≤ 1025) ∧
    ((withR (.div ⟨1⟩)).r = some (.div ⟨1⟩) ∧ 1 < 2) ∧ ((withR (.div ⟨1026⟩)).r = some (.div ⟨1026⟩) ∧ 1025 < 1026) := by decide
theorem witness_DivRoundTrip : (2 ≤ 2 ∧ 2 ≤ 1025) ∧ (2 ≤ 1025 ∧ 1025 ≤ 1025) ∧ divEnc ⟨4⟩ = .ok 0x8000#16 ∧
    0xC0FF#16 &&& 0x3F00#16 = 0#16 := ⟨by decide, by decide, rfl, by decide⟩
theorem witness_PreEncResult : 3 ≠ 1 ∧ 3 ≠ 2 ∧ 3 ≠ 4 ∧ 3 ≠ 8 ∧ 16 ≠ 1 ∧ 16 ≠ 2 ∧ 16 ≠ 4 ∧ 16 ≠ 8 := by decide
theorem witness_MuxDecResult : (withT 0xFFFE#16 (.read .mux)).t = some ⟨0xFFFE#16, .read .mux⟩ := rfl
theorem witness_MuxEncResult : (withR (.mux { muxB with prescaler1 := 8 })).r = some (.mux { muxB with prescaler1 := 8 }) ∧
    muxB.prescaler0 = 2 ^ (0b00#2).toNat ∧ 8 = 2 ^ (0b11#2).toNat := by decide
theorem witness_MuxEncRaisesInvalidPrescaler :
    ((withR (.mux { muxB with prescaler0 := 3 })).r = some (.mux { muxB with prescaler0 := 3 }) ∧ 3 ∉ [1, 2, 4, 8]) ∧
    ((withR (.mux { muxB with prescaler1 := 0 })).r = some (.mux { muxB with prescaler1 := 0 }) ∧ 0 ∉ [1, 2, 4, 8]) := by decide
theorem witness_SwappedCodecExchangesBits15And0 : (0x407F#16).getLsbD 15 = (0xC07E#16).getLsbD 0 ∧
    (0x407F#16).getLsbD 0 = (0xC07E#16).getLsbD 15 ∧ ∀ k : Fin 14, (0x407F#16).getLsbD (k + 1) = (0xC07E#16).getLsbD (k + 1) := by decide
theorem witness_MuxRoundTrip : muxB.prescaler0 ∈ [1, 2, 4, 8] ∧ muxB.prescaler1 ∈ [1, 2, 4, 8] ∧ muxEnc false muxB = .ok 0#16 ∧
    0xC07F#16 &&& 0x3F80#16 = 0#16 := ⟨by decide, by decide, rfl, by decide⟩
theorem witness_ReservedBitsZeroOnWriteIgnoredOnRead : 0x3F80#16 &&& RegId.mux.mask = 0#16 &&& RegId.mux.mask ∧
    encodeOf false (.bus ⟨0x5A, true⟩) = .ok 0x02#16 := ⟨by decide, rfl⟩
theorem witness_CodecResultDependsOnInputsOnly : isCodec .divDec = true ∧
    (withT 0#16 (.read .div)).t = ({ withT 0#16 (.read .div) with reg := ⟨0#8, 0#16, 0#16⟩, handle := .closed } : State).t ∧
    ∃ s', exec .divDec (withT 0#16 (.read .div)) = .next s' := ⟨rfl, rfl, _, rfl⟩
theorem witness_CodecNeverTouchesTransport : isCodec .busEnc = true ∧ ∃ s', exec .busEnc (withR (.bus ⟨0x5A, true⟩)) = .next s' :=
  ⟨rfl, _, rfl⟩
theorem witness_CodecErrorPrecedesAnyEffect : isCodec .divEnc = true ∧ (withR (.div ⟨1⟩)).status = .running ∧
    ∃ s', exec .divEnc (withR (.div ⟨1⟩)) = .next s' ∧ s'.status = .failed .invalidDivisor := ⟨rfl, rfl, _, rfl, rfl⟩
theorem witness_PortsAgreeWithTypedCodec : divEnc ⟨2⟩ = .ok 0#16 ∧ muxEnc false muxB = .ok 0#16 ∧ busEnc ⟨0x5F, false⟩ = .ok 0x0F#8 ∧
    (0x57#8).toNat < 0x58 ∧ 1025 < (1026#16).toNat ∧ (3#8).toNat ∉ [1, 2, 4, 8] ∧
    0x13F#9 ∉ [0x001#9, 0x002#9, 0x00D#9, 0x101#9, 0x102#9, 0x10D#9] := ⟨rfl, rfl, rfl, by decide, by decide, by decide, by decide⟩
theorem witness_reads_pass : demo.handle = .configured ∧ demo.nextDraw.fails = false := by decide
theorem witness_reads_fail : ({ demo with draws := [failing] } : State).handle = .configured ∧
    ({ demo with draws := [failing] } : State).nextDraw.fails = true := by decide
theorem witness_RdDivResult : (demo.handle = .configured ∧ demo.nextDraw.fails = false) ∧
    ({ demo with draws := [failing] } : State).handle = .configured ∧ ({ demo with draws := [failing] } : State).nextDraw.fails = true :=
  ⟨witness_reads_pass, witness_reads_fail⟩
theorem witness_RdMuxResult : (demo.handle = .configured ∧ demo.nextDraw.fails = false) ∧
    ({ demo with draws := [failing] } : State).handle = .configured ∧ ({ demo with draws := [failing] } : State).nextDraw.fails = true :=
  ⟨witness_reads_pass, witness_reads_fail⟩
theorem witness_RdBusResult : (demo.handle = .configured ∧ demo.nextDraw.fails = false) ∧
    ({ demo with draws := [failing] } : State).handle = .configured ∧ ({ demo with draws := [failing] } : State).nextDraw.fails = true :=
  ⟨witness_reads_pass, witness_reads_fail⟩
theorem witness_E2wResult : (demo.handle = .configured ∧ demo.nextDraw.fails = false) ∧
    ({ demo with draws := [failing] } : State).handle = .configured ∧ ({ demo with draws := [failing] } : State).nextDraw.fails = true :=
  ⟨witness_reads_pass, witness_reads_fail⟩
theorem witness_WrDivResult : (withT 0xC0FF#16 (.encoded .div)).handle = .configured ∧
    (withT 0xC0FF#16 (.encoded .div)).t = some ⟨0xC0FF#16, .encoded .div⟩ ∧ (withT 0xC0FF#16 (.encoded .div)).nextDraw.fails = false := by decide
theorem witness_WrMuxResult : (withT 0x407F#16 (.encoded .mux)).handle = .configured ∧
    (withT 0x407F#16 (.encoded .mux)).t = some ⟨0x407F#16, .encoded .mux⟩ ∧ (withT 0x407F#16 (.encoded .mux)).nextDraw.fails = false := by decide
theorem witness_WrBusResult : (withT 0x02#16 (.encoded .bus)).handle = .configured ∧
    (withT 0x02#16 (.encoded .bus)).t = some ⟨(0x02#8).setWidth 16, .encoded .bus⟩ ∧ (withT 0x02#16 (.encoded .bus)).nextDraw.fails = false := by decide
theorem witness_FailedWriteLeavesOldOrNew :
    ({ withT 0x0A#16 (.encoded .bus) with draws := [failing] } : State).handle = .configured ∧
    ({ withT 0x0A#16 (.encoded .bus) with draws := [failing] } : State).t = some ⟨0x0A#16, .encoded .bus⟩ ∧
    ({ withT 0x0A#16 (.encoded .bus) with draws := [failing] } : State).nextDraw.fails = true := by decide
/-- About to write x, with an UPD of y that names no field after it, on calls that pass. -/
def writeThenUpd (x y : RegId) (v : Word16) : State :=
  { withT v (.encoded x) with lines := updLines y [], draws := [passing, passing, passing, passing] }

/-- A write of x, four steps that read, decode, encode and write y, and a read of x. -/
theorem witness_ReadReturnsLatestWrite (x y : RegId) (v : Word16) (h : (x, y, v) ∈
    [(RegId.div, RegId.bus, 0xC0FF#16), (RegId.mux, RegId.div, 0x407F#16), (RegId.bus, RegId.mux, 0x0002#16)]) :
    ∃ s₁ s₂ s₃, exec (wrOf x) (writeThenUpd x y v) = .next s₁ ∧ s₁.status = .running ∧ neverCallsWithin (wrOf x) 4 s₁ ∧
      runSteps 4 s₁ = .next s₂ ∧ exec (rdOf x) s₂ = .next s₃ ∧ s₃.status = .running := by
  simp only [List.mem_cons, Prod.mk.injEq, List.not_mem_nil, or_false] at h
  rcases h with ⟨rfl, rfl, rfl⟩ | ⟨rfl, rfl, rfl⟩ | ⟨rfl, rfl, rfl⟩
  all_goals
    refine ⟨_, _, _, rfl, rfl, ?_, rfl, rfl, rfl⟩
    exact neverCallsWithin_of_step rfl rfl (neverCallsWithin_of_step rfl rfl
      (neverCallsWithin_of_step rfl rfl (neverCallsWithin_of_step rfl rfl trivial)))
theorem witness_WritingTwiceIsWritingOnce : ∃ s₁ s₂, exec .wrDiv (withT 0xC0FF#16 (.encoded .div)) = .next s₁ ∧ s₁.status = .running ∧
    exec .wrDiv s₁ = .next s₂ := ⟨_, _, rfl, rfl, rfl⟩
theorem witness_WriteNeedsMatchingEncode : (withT 0x02#16 (.encoded .mux)).handle = .configured ∧
    (withT 0x02#16 (.encoded .mux)).t = some ⟨0x02#16, .encoded .mux⟩ ∧ Source.encoded RegId.mux ≠ .encoded .div := by decide
theorem witness_UseBeforeValueOrSetUpIsRefused : demo.t = none ∧ demo.r = none ∧ demo.handle = .configured ∧
    ({ demo with handle := .bound } : State).handle ≠ .configured := by decide
theorem witness_AccessOutsideTheMapIsRefused : 0x3F#8 ∉ [0x01#8, 0x02#8, 0x0D#8] ∧ 0x00#8 ∉ [0x01#8, 0x02#8, 0x0D#8, 0x3F#8] ∧
    ((0x02#8, 1) ∉ [(0x01#8, 2), (0x02#8, 2), (0x0D#8, 1)] ∧ 0x02#8 ∈ [0x01#8, 0x02#8, 0x0D#8]) ∧
    ((0x3F#8, 1) ∉ [(0x01#8, 2), (0x02#8, 2), (0x0D#8, 1), (0x3F#8, 0)] ∧ 0x3F#8 ∈ [0x01#8, 0x02#8, 0x0D#8, 0x3F#8]) := by decide
/-- `demo` with a record in `r` and a SET as its next line. -/
def withSet (rec : Record) (f : FieldSet) : State := { withR rec with lines := [.set f] }

theorem witness_SetEditsTheLocalRecordAlone :
    ((withSet (.bus ⟨0x58, true⟩) (.address 0x5F)).status = .running ∧ (withSet (.bus ⟨0x58, true⟩) (.address 0x5F)).r = some (.bus ⟨0x58, true⟩) ∧
      (withSet (.bus ⟨0x58, true⟩) (.address 0x5F)).lines = [.set (.address 0x5F)]) ∧
    ((withSet (.div ⟨2⟩) (.n 1025)).r = some (.div ⟨2⟩) ∧ (withSet (.div ⟨2⟩) (.n 1025)).lines = [.set (.n 1025)]) ∧
    ((withSet (.mux muxB) (.en0 true)).r = some (.mux muxB) ∧ (withSet (.mux muxB) (.en0 true)).lines = [.set (.en0 true)]) ∧
    ((withSet (.mux muxB) (.n 2)).r = some (.mux muxB) ∧ (withSet (.mux muxB) (.n 2)).lines = [.set (.n 2)]) ∧
    (withLines [.set (.n 2)]).r = none ∧ (withLines [.make (.div ⟨0⟩)]).status = .running := by decide
theorem test_set_prescaler1 : (after (step (withSet (.mux muxB) (.prescaler1 8)))).map (·.r)
    = some (some (.mux ⟨false, false, false, false, 1, 8, false⟩)) := by decide
theorem test_set_pdn0 : (after (step (withSet (.mux muxB) (.pdn0 true)))).map (·.r)
    = some (some (.mux ⟨false, true, false, false, 1, 1, false⟩)) := by decide

/-- `demo` before its set-up, with a given outcome of the two fallible actions. -/
def beforeSetUp (target : Nat) (d₁ d₂ : Draw) : State :=
  { withLines (setupLines target) with handle := .closed, draws := [d₁, d₂] }

theorem witness_SetUpBindsLegalAddress :
    ((beforeSetUp 0x5F passing passing).status = .running ∧ (beforeSetUp 0x5F passing passing).handle = .closed ∧
      (beforeSetUp 0x5F passing passing).lines = setupLines 0x5F ++ [] ∧ (beforeSetUp 0x5F passing passing).draws = [passing, passing]) ∧
    (beforeSetUp 0x58 failing passing).draws = [failing, passing] ∧ (beforeSetUp 0x58 passing failing).draws = [passing, failing] ∧
    passing.fails = false ∧ failing.fails = true ∧
    (0x58 ≤ 0x58 ∧ 0x58 ≤ 0x5F) ∧ (0x58 ≤ 0x5F ∧ 0x5F ≤ 0x5F) ∧ 0x57 < 0x58 ∧ 0x5F < 0x60 := by decide
theorem test_setUp_failed_open : (after (runSteps 3 (beforeSetUp 0x58 failing passing))).map (fun s => (s.status, s.handle))
    = some (.failed .ioError, .closed) := by decide
theorem witness_SetUpOutOfOrderIsRefused :
    ((withLines [.openHandle]).status = .running ∧ (withLines [.openHandle]).handle ≠ .closed) ∧
    (withLines [.bindHandle 0x58]).handle ≠ .opened ∧ (withLines [.configureHandle]).handle ≠ .bound := by decide
theorem witness_GetYieldsDecodedRegister : (withLines (getLines .bus)).status = .running ∧ (withLines (getLines .bus)).handle = .configured ∧
    (withLines (getLines .bus)).lines = getLines .bus ++ [] ∧ (withLines (getLines .bus)).nextDraw.fails = false := by decide
theorem witness_UpdChangesExactlyTheNamedFields :
    (withLines (updLines .div [.n 1000])).status = .running ∧ (withLines (updLines .div [.n 1000])).handle = .configured ∧
    (withLines (updLines .div [.n 1000])).draws = [passing, passing] ∧
    applyAll [.n 1000] (decodeOf false .div (demo.reg.value .div)) = some (.div ⟨1000⟩) ∧
    encodeOf false (.div ⟨1000⟩) = .ok 0x80F9#16 := ⟨rfl, rfl, rfl, rfl, rfl⟩
theorem witness_RefusedUpdWritesNothing :
    (withLines (updLines .div [.n 1026])).status = .running ∧ (withLines (updLines .div [.n 1026])).handle = .configured ∧
    (withLines (updLines .div [.n 1026])).draws = [passing, passing] ∧
    applyAll [.n 1026] (decodeOf false .div (demo.reg.value .div)) = some (.div ⟨1026⟩) ∧
    encodeOf false (.div ⟨1026⟩) = .error .invalidDivisor := ⟨rfl, rfl, rfl, rfl, rfl⟩

/-- `demo` about to trigger the EEPROM write. -/
def beforeE2w : State := withLines [opLine .e2w]

theorem witness_OnlyTransfersChangeTheDevice : ∃ s', step beforeE2w = .next s' ∧ s'.nv ≠ beforeE2w.nv := ⟨_, rfl, by decide⟩
theorem witness_OnlyTransfersChangeTheDevice_reg :
    ∃ s', step { withT 0xC0FF#16 (.encoded .div) with lines := [opLine .wrDiv] } = .next s' ∧ s'.reg ≠ demo.reg := ⟨_, rfl, by decide⟩
theorem witness_OnlyBindingChangesTheDeviceAddress :
    ∃ s', step { withLines [.bindHandle 0x5F] with handle := .opened } = .next s' ∧ s'.devAddr ≠ 0x58 := ⟨_, rfl, by decide⟩
theorem witness_StepKeepsInvariant : Inv beforeE2w ∧ ∃ s', step beforeE2w = .next s' :=
  ⟨⟨by decide, (fun _ h => by cases h), (fun h => absurd rfl h), (fun _ h => by cases h)⟩, _, rfl⟩

end Sys2Proof.Tests
end

section
/-! PROOFS. What the encode functions answer, case by case, and that no encoded word carries a reserved bit (R19, R59). -/

namespace Sys2Proof.Proofs

open Sys2Proof.Machine Sys2Proof.Safety Sys2Proof.Laws

/-! ### The encode functions -/

/-- Everything DIV.ENC can do (R83). -/
theorem divEnc_cases (d : DivRegister) :
    (2 ≤ d.n ∧ d.n ≤ 1025 ∧ divEnc d = .ok (divWord (BitVec.ofNat 10 (d.n - 2)))) ∨
    ((d.n < 2 ∨ 1025 < d.n) ∧ divEnc d = .error .invalidDivisor) := by
  unfold divEnc nMin nMax nOffset
  split
  case isTrue h => exact .inr ⟨h, rfl⟩
  case isFalse h => exact .inl ⟨by omega, by omega, rfl⟩

/-- Everything BUS.ENC can do (R72). -/
theorem busEnc_cases (b : BusRegister) :
    (0x58 ≤ b.address ∧ b.address ≤ 0x5F ∧
      busEnc b = .ok (0b0000#4 ++ (if b.writeControl then 0#1 else 1#1) ++ BitVec.ofNat 3 b.address)) ∨
    ((b.address < 0x58 ∨ 0x5F < b.address) ∧ busEnc b = .error .invalidAddress) := by
  unfold busEnc
  split
  case isTrue h =>
    obtain ⟨hlo, hhi⟩ := (addressLegal_iff _).mp h
    exact .inl ⟨hlo, hhi, rfl⟩
  case isFalse h => exact .inr ⟨(addressLegal_eq_false_iff _).mp (by simpa using h), rfl⟩

/-- Everything MUX.ENC can do (R97). -/
theorem muxEnc_cases (swapped : Bool) (m : MuxRegister) :
    (∃ c0 c1 : BitVec 2, m.prescaler0 = 2 ^ c0.toNat ∧ m.prescaler1 = 2 ^ c1.toNat ∧
      muxEnc swapped m = .ok (muxWord swapped m c0 c1)) ∨
    ((m.prescaler0 ∉ [1, 2, 4, 8] ∨ m.prescaler1 ∉ [1, 2, 4, 8]) ∧
      muxEnc swapped m = .error .invalidPrescaler) := by
  unfold muxEnc
  rcases preEnc_cases m.prescaler0 with ⟨c0, h0, e0⟩ | ⟨h0, e0⟩
  · rcases preEnc_cases m.prescaler1 with ⟨c1, h1, e1⟩ | ⟨h1, e1⟩
    · exact .inl ⟨c0, c1, h0, h1, by rw [e0, e1]⟩
    · exact .inr ⟨.inr h1, by rw [e0, e1]⟩
  · exact .inr ⟨.inl h0, by rw [e0]⟩

/-- DIV.ENC refuses every divisor outside 2..1025 (R131). -/
theorem divEnc_error {d : DivRegister} (h : d.n < 2 ∨ 1025 < d.n) : divEnc d = .error .invalidDivisor := by
  rcases divEnc_cases d with ⟨hlo, hhi, -⟩ | ⟨-, he⟩
  · omega
  · exact he

/-- BUS.ENC refuses every address outside 0x58..0x5F (R133). -/
theorem busEnc_error {b : BusRegister} (h : b.address < 0x58 ∨ 0x5F < b.address) :
    busEnc b = .error .invalidAddress := by
  rcases busEnc_cases b with ⟨hlo, hhi, -⟩ | ⟨-, he⟩
  · omega
  · exact he

/-- MUX.ENC refuses every record with a prescaler outside the table (R132). -/
theorem muxEnc_error {m : MuxRegister} (swapped : Bool)
    (h : m.prescaler0 ∉ [1, 2, 4, 8] ∨ m.prescaler1 ∉ [1, 2, 4, 8]) :
    muxEnc swapped m = .error .invalidPrescaler := by
  rcases muxEnc_cases swapped m with ⟨c0, c1, h0, h1, -⟩ | ⟨-, he⟩
  · rw [h0, h1] at h
    exact absurd h (by simp only [pow_code_mem, not_true_eq_false, or_self, not_false_eq_true])
  · exact he

/-! ### Reserved bits -/

theorem reservedClear_iff (x : RegId) (v : Word16) : reservedClear x v = true ↔ v &&& ~~~x.mask = 0#16 := by
  simp [reservedClear]

/-- The bits above a register's width do not matter to its reserved bits being clear. -/
theorem reservedClear_and_width {x : RegId} {v : Word16} (h : reservedClear x v = true) :
    reservedClear x (v &&& x.width) = true := by
  rw [reservedClear_iff] at h ⊢
  rw [BitVec.and_assoc, BitVec.and_comm x.width, ← BitVec.and_assoc, h, BitVec.zero_and]

/-- A wire value whose bits outside the mask are all 0 has no reserved bit (R19). -/
theorem reservedClear_of_bits {x : RegId} {v : Word16}
    (h : ∀ i < 16, x.mask.getLsbD i = false → v.getLsbD i = false) : reservedClear x v = true := by
  rw [reservedClear_iff]
  apply BitVec.eq_of_getLsbD_eq
  intro i hi
  cases hm : x.mask.getLsbD i with
  | true => simp [hi, hm]
  | false => simp [h i hi hm]

/-- The mask of DIV leaves out bits 13..8 alone (R19). -/
theorem mask_div_bit (i : Fin 16) : RegId.div.mask.getLsbD i = false → 8 ≤ i.val ∧ i.val < 14 := by
  revert i
  decide

/-- The mask of MUX leaves out bits 13..7 alone (R19). -/
theorem mask_mux_bit (i : Fin 16) : RegId.mux.mask.getLsbD i = false → 7 ≤ i.val ∧ i.val < 14 := by
  revert i
  decide

/-- The word of DIV.ENC has bits 13..8 clear (R83). -/
theorem reservedClear_divWord (v : BitVec 10) : reservedClear .div (divWord v) = true := by
  refine reservedClear_of_bits fun i hi hm => ?_
  obtain ⟨hlo, hhi⟩ := mask_div_bit ⟨i, hi⟩ hm
  simp only [divWord, BitVec.getLsbD_append]
  interval_cases i <;> rfl

/-- The word of MUX.ENC has bits 13..7 clear (R97). -/
theorem reservedClear_muxWord (swapped : Bool) (m : MuxRegister) (c0 c1 : BitVec 2) :
    reservedClear .mux (muxWord swapped m c0 c1) = true := by
  refine reservedClear_of_bits fun i hi hm => ?_
  obtain ⟨hlo, hhi⟩ := mask_mux_bit ⟨i, hi⟩ hm
  simp only [muxWord, BitVec.getLsbD_append]
  interval_cases i <;> rfl

/-- A byte with its upper half 0 has no reserved bit of BUS set (R72). -/
theorem reservedClear_busByte (lo : BitVec 4) : reservedClear .bus ((0b0000#4 ++ lo).setWidth 16) = true := by
  revert lo
  decide

theorem reservedClear_of_divEnc {d : DivRegister} {w : Word16} (h : divEnc d = .ok w) :
    reservedClear .div w = true := by
  rcases divEnc_cases d with ⟨-, -, he⟩ | ⟨-, he⟩ <;> rw [he] at h <;> cases h
  exact reservedClear_divWord _

theorem reservedClear_of_muxEnc {swapped : Bool} {m : MuxRegister} {w : Word16} (h : muxEnc swapped m = .ok w) :
    reservedClear .mux w = true := by
  rcases muxEnc_cases swapped m with ⟨c0, c1, -, -, he⟩ | ⟨-, he⟩ <;> rw [he] at h <;> cases h
  exact reservedClear_muxWord ..

theorem reservedClear_of_busEnc {b : BusRegister} {w : Word16}
    (h : (busEnc b).map (fun v => v.setWidth 16) = .ok w) : reservedClear .bus w = true := by
  rcases busEnc_cases b with ⟨-, -, he⟩ | ⟨-, he⟩ <;> rw [he] at h <;> cases h
  rw [BitVec.append_assoc]
  exact reservedClear_busByte _

end Sys2Proof.Proofs
end

section
/-! PROOFS. Facts about the select tables and the decoder (R56, R57, R60). -/

namespace Sys2Proof.Proofs

open Sys2Proof.Machine

/-- A select that a table looks up stands in one of its rows. -/
theorem mem_of_lookupSelect {rows : List SelectRow} {sel : Select9} {i : Instr}
    (h : lookupSelect rows sel = some i) : ⟨sel, i⟩ ∈ rows := by
  induction rows with
  | nil => cases h
  | cons row rows ih =>
    unfold lookupSelect at h
    split at h
    case isTrue hsel =>
      cases h
      exact hsel ▸ List.mem_cons_self
    case isFalse => exact List.mem_cons_of_mem _ (ih h)

/-- A select in no row of a table has no operation in it (R60). -/
theorem lookupSelect_eq_none {rows : List SelectRow} {sel : Select9} (h : sel ∉ rows.map (·.sel)) :
    lookupSelect rows sel = none := by
  cases hl : lookupSelect rows sel with
  | none => rfl
  | some i => exact absurd (List.mem_map_of_mem (f := (·.sel)) (mem_of_lookupSelect hl)) h

/-- A select decodes only to an operation that its table has a row for. -/
theorem mem_table_of_decodeSelect {f : Interface} {table : List SelectRow} {bytes : List Byte} {i : Instr}
    (h : decodeSelect f table bytes = .instr i) : ∃ sel, ⟨sel, i⟩ ∈ table := by
  unfold decodeSelect at h
  split at h
  case h_2 => cases h
  case h_1 =>
    split at h
    case h_2 => cases h
    case h_1 sel _ =>
      split at h <;> cases h
      case h_1 hl => exact ⟨sel, mem_of_lookupSelect hl⟩

/-- An operation is called on its own interface only (R56, R57). -/
theorem iface_of_decode {f : Interface} {bytes : List Byte} {i : Instr} (h : decode f bytes = .instr i) :
    i.iface = f := by
  cases f with
  | codec =>
    obtain ⟨sel, hrow⟩ := mem_table_of_decodeSelect h
    have htable : ∀ row ∈ codecTable, row.instr.iface = .codec := by decide
    exact htable _ hrow
  | transport =>
    obtain ⟨sel, hrow⟩ := mem_table_of_decodeSelect h
    have htable : ∀ row ∈ transportTable, row.instr.iface = .transport := by decide
    exact htable _ hrow
  | decodePrescaler =>
    simp only [decode] at h
    split at h
    case h_2 => cases h
    case h_1 => split at h <;> cases h; rfl
  | encodePrescaler =>
    simp only [decode] at h
    split at h <;> cases h
    rfl

end Sys2Proof.Proofs
end

section
/-! PROOFS. The codec operations as updates of the caller's own fields, and that their result depends on their inputs
alone (R10). -/

namespace Sys2Proof.Proofs

open Sys2Proof.Machine Sys2Proof.Safety Sys2Proof.Laws

/-- What an operation of the codec, or an edit of the caller's record, can make of a state: one local set, or an error
raised. It speaks of no register, copy, handle, draw or transfer. -/
inductive CallerUpdate where
  /-- `r <- rec` (R61). -/
  | record (rec : Record)
  /-- `t <- w`, encoded for x (R61). -/
  | word (x : RegId) (w : Word16)
  /-- The result of a direct prescaler call (log 15). -/
  | sub (v : SubResult)
  /-- An error in place of a value (R134). -/
  | error (e : OpError)

/-- The update carried out, in the model's own operations. -/
def CallerUpdate.apply : CallerUpdate → State → State
  | .record rec, s => s.setR rec
  | .word x w, s => s.setT w (.encoded x)
  | .sub v, s => s.setSub v
  | .error e, s => s.raise e

/-- An update that puts no reserved bit into `t` (R19, R59). -/
def CallerUpdate.Legal : CallerUpdate → Prop
  | .word x w => reservedClear x w = true
  | .record _ => True
  | .sub _ => True
  | .error _ => True

/-- The update that ends `ENC X` on the result of its encode function. -/
def CallerUpdate.ofEncode (x : RegId) : Except OpError Word16 → CallerUpdate
  | .ok w => .word x w
  | .error e => .error e

theorem CallerUpdate.legal_ofEncode {x : RegId} {res : Except OpError Word16}
    (h : ∀ w, res = .ok w → reservedClear x w = true) : (CallerUpdate.ofEncode x res).Legal := by
  cases res with
  | ok w => exact h w rfl
  | error e => trivial

theorem encodeInto_eq_ofEncode (x : RegId) (res : Except OpError Word16) (s : State) :
    encodeInto x res s = .next ((CallerUpdate.ofEncode x res).apply s) := by
  cases res <;> rfl

/-- A decode that answers sets one record, the same from every state with the same `t`. -/
theorem decodeInto_record {f : Word16 → Record} {s s' : State} (h : decodeInto f s = .next s') :
    ∃ rec, ∀ u : State, u.t = s.t → decodeInto f u = .next ((CallerUpdate.record rec).apply u) := by
  obtain ⟨w, ht, -⟩ := decodeInto_next h
  refine ⟨f w.value, fun u hu => ?_⟩
  simp only [decodeInto, hu, ht, CallerUpdate.apply]

section Frame

variable (c : CallerUpdate) (s : State)

@[simp] theorem CallerUpdate.apply_reg : (c.apply s).reg = s.reg := by cases c <;> rfl
@[simp] theorem CallerUpdate.apply_nv : (c.apply s).nv = s.nv := by cases c <;> rfl
@[simp] theorem CallerUpdate.apply_devAddr : (c.apply s).devAddr = s.devAddr := by cases c <;> rfl
@[simp] theorem CallerUpdate.apply_handle : (c.apply s).handle = s.handle := by cases c <;> rfl
@[simp] theorem CallerUpdate.apply_wire : (c.apply s).wire = s.wire := by cases c <;> rfl
@[simp] theorem CallerUpdate.apply_p1Swapped : (c.apply s).p1Swapped = s.p1Swapped := by cases c <;> rfl
@[simp] theorem CallerUpdate.apply_draws : (c.apply s).draws = s.draws := by cases c <;> rfl
@[simp] theorem CallerUpdate.apply_drawCount : (c.apply s).drawCount = s.drawCount := by cases c <;> rfl

end Frame

/-- The caller's values and the outcome after an update are a function of those before it. -/
theorem CallerUpdate.apply_congr (c : CallerUpdate) {s u : State} (ht : s.t = u.t) (hr : s.r = u.r)
    (hsub : s.sub = u.sub) (hst : s.status = u.status) :
    (c.apply s).t = (c.apply u).t ∧ (c.apply s).r = (c.apply u).r ∧ (c.apply s).sub = (c.apply u).sub ∧
      (c.apply s).status = (c.apply u).status := by
  cases c <;> simp [CallerUpdate.apply, ht, hr, hsub, hst]

/-- A codec operation that answers makes one legal update, the same from every state that agrees on the operands and the
switch (R10, R28, R59). -/
theorem exec_codec_uniform {i : Instr} {s s' : State} (hi : isCodec i = true) (h : exec i s = .next s') :
    ∃ c : CallerUpdate, c.Legal ∧
      ∀ u : State, u.t = s.t → u.r = s.r → u.p1Swapped = s.p1Swapped → exec i u = .next (c.apply u) := by
  cases i with
  | divDec =>
    obtain ⟨rec, hrec⟩ := decodeInto_record (f := fun w => .div (divDec w)) h
    exact ⟨.record rec, trivial, fun u ht _ _ => hrec u ht⟩
  | busDec =>
    obtain ⟨rec, hrec⟩ := decodeInto_record (f := fun w => .bus (busDec (w.extractLsb' 0 8))) h
    exact ⟨.record rec, trivial, fun u ht _ _ => hrec u ht⟩
  | muxDec =>
    obtain ⟨rec, hrec⟩ := decodeInto_record (f := fun w => .mux (muxDec s.p1Swapped w)) h
    refine ⟨.record rec, trivial, fun u ht _ hp => ?_⟩
    simp only [exec, execMuxDec, hp, hrec u ht]
  | divEnc =>
    obtain ⟨d, hr, -⟩ := execDivEnc_next h
    refine ⟨.ofEncode .div (divEnc d), CallerUpdate.legal_ofEncode fun _ => reservedClear_of_divEnc,
      fun u _ hu _ => ?_⟩
    simp only [exec, execDivEnc, hu, hr, encodeInto_eq_ofEncode]
  | busEnc =>
    obtain ⟨b, hr, -⟩ := execBusEnc_next h
    refine ⟨.ofEncode .bus _, CallerUpdate.legal_ofEncode fun _ => reservedClear_of_busEnc (b := b),
      fun u _ hu _ => ?_⟩
    simp only [exec, execBusEnc, hu, hr, encodeInto_eq_ofEncode]
  | muxEnc =>
    obtain ⟨m, hr, -⟩ := execMuxEnc_next h
    refine ⟨.ofEncode .mux (muxEnc s.p1Swapped m), CallerUpdate.legal_ofEncode fun _ => reservedClear_of_muxEnc,
      fun u _ hu hp => ?_⟩
    simp only [exec, execMuxEnc, hu, hr, hp, encodeInto_eq_ofEncode]
  | preDec code => exact ⟨.sub (.divisor (preDec code)), trivial, fun _ _ _ _ => rfl⟩
  | preEnc p =>
    rcases execPreEnc_next h with ⟨c, hc, -⟩ | ⟨e, he, -⟩
    · exact ⟨.sub (.code c), trivial, fun _ _ _ _ => by simp only [exec, execPreEnc, hc, CallerUpdate.apply]⟩
    · exact ⟨.error e, trivial, fun _ _ _ _ => by simp only [exec, execPreEnc, he, CallerUpdate.apply]⟩
  | rdDiv | rdMux | rdBus | wrDiv | wrMux | wrBus | e2w => cases hi

/-- A codec operation that answers has made one legal update (R59, R134). -/
theorem exec_codec_next {i : Instr} {s s' : State} (hi : isCodec i = true) (h : exec i s = .next s') :
    ∃ c : CallerUpdate, c.Legal ∧ s' = c.apply s := by
  obtain ⟨c, legal, hc⟩ := exec_codec_uniform hi h
  exact ⟨c, legal, by simpa [h] using hc s rfl rfl rfl⟩

/-- Settles O29: the update a codec operation makes is fixed by `t`, `r` and the switch, and carries `sub` and the outcome
over. -/
theorem codecResultDependsOnInputsOnly : Obligations.CodecResultDependsOnInputsOnly := by
  intro i s u s' hi ht hr hsub hst hp h
  obtain ⟨c, -, hc⟩ := exec_codec_uniform hi h
  obtain rfl : s' = c.apply s := by simpa [h] using hc s rfl rfl rfl
  exact ⟨c.apply u, hc u ht.symm hr.symm hp.symm, c.apply_congr ht hr hsub hst⟩

end Sys2Proof.Proofs
end

section
/-! PROOFS. What one line of a sequence can do, said once; what every step keeps and what it may change follows (R19, R20,
R26, R36, R121). -/

namespace Sys2Proof.Proofs

open Sys2Proof.Machine Sys2Proof.Safety Sys2Proof.Laws

/-! ### Operations by their kind -/

/-- An operation that answers is one of the codec's, a read or a write of a register, or the trigger (R1). -/
theorem exec_next {i : Instr} {s s' : State} (h : exec i s = .next s') :
    isCodec i = true ∨ (∃ x, i = rdOf x ∧ readRegister x s = .next s') ∨
    (∃ x, i = wrOf x ∧ writeRegister x s = .next s') ∨ (i = .e2w ∧ triggerEepromWrite s = .next s') := by
  cases i with
  | rdDiv => exact .inr (.inl ⟨.div, rfl, h⟩)
  | rdMux => exact .inr (.inl ⟨.mux, rfl, h⟩)
  | rdBus => exact .inr (.inl ⟨.bus, rfl, h⟩)
  | wrDiv => exact .inr (.inr (.inl ⟨.div, rfl, h⟩))
  | wrMux => exact .inr (.inr (.inl ⟨.mux, rfl, h⟩))
  | wrBus => exact .inr (.inr (.inl ⟨.bus, rfl, h⟩))
  | e2w => exact .inr (.inr (.inr ⟨rfl, h⟩))
  | divDec | divEnc | muxDec | muxEnc | busDec | busEnc | preDec | preEnc => exact .inl rfl

theorem iface_wrOf (x : RegId) : (wrOf x).iface = .transport := by cases x <;> rfl

/-- What a line can make of a state. The line is named where it decides what may change: a write, the trigger and a
binding. The contents a write leaves in the device are left open here; `writeRegister_next` has them. -/
inductive LineEffect (s : State) : Line → State → Prop
  /-- A codec operation, a SET, a construction, or a binding to an illegal address (R61, R133). -/
  | caller {l : Line} (c : CallerUpdate) (legal : c.Legal) : LineEffect s l (c.apply s)
  /-- A read that passes (R111 to R113). -/
  | readPasses {l : Line} (x : RegId) (v : Word16) :
      LineEffect s l ((s.useDraw.log ⟨.read, x.id, some (payloadOf x v), true⟩).setT (v &&& x.width) (.read x))
  /-- A read that fails (R135). -/
  | readFails {l : Line} (x : RegId) :
      LineEffect s l ((s.useDraw.log ⟨.read, x.id, none, false⟩).raise .ioError)
  /-- A write of an encoded value, passed or failed (R43, R115 to R117). -/
  | write {bytes : List Byte} (x : RegId) (w : WireValue) (reg nv : Regs) (ok : Bool) (res : Except OpError Unit)
      (decoded : decode .transport bytes = .instr (wrOf x)) (operand : s.t = some w) (source : w.source = .encoded x) :
      LineEffect s (.op .transport bytes)
        (({ s.useDraw.log ⟨.write, x.id, some (payloadOf x w.value), ok⟩ with reg := reg, nv := nv } : State).afterWrite res)
  /-- The EEPROM-write trigger, passed or failed (R120). -/
  | trigger {bytes : List Byte} (nv : Regs) (ok : Bool) (res : Except OpError Unit)
      (decoded : decode .transport bytes = .instr .e2w) :
      LineEffect s (.op .transport bytes)
        (({ s.useDraw.log ⟨.write, cmdE2W, some [], ok⟩ with nv := nv } : State).afterWrite res)
  /-- The node opened or the handle configured (R153). -/
  | setUpPasses {l : Line} (handle : Handle) : LineEffect s l { s.useDraw with handle := handle }
  /-- An opening or a configuration that fails (R135). -/
  | setUpFails {l : Line} : LineEffect s l (s.useDraw.raise .ioError)
  /-- The handle bound to a legal address (R26, R133). -/
  | bind (a : Nat) (legal : addressLegal a = true) :
      LineEffect s (.bindHandle a) { s with devAddr := a, handle := .bound }

/-- A call that answers has one of the effects. -/
theorem lineEffect_of_exec {f : Interface} {bytes : List Byte} {i : Instr} {s s' : State}
    (hd : decode f bytes = .instr i) (h : exec i s = .next s') : LineEffect s (.op f bytes) s' := by
  rcases exec_next h with hi | ⟨x, -, hx⟩ | ⟨x, rfl, hx⟩ | ⟨rfl, hx⟩
  · obtain ⟨c, legal, rfl⟩ := exec_codec_next hi h
    exact .caller c legal
  · obtain ⟨-, ⟨-, rfl⟩ | ⟨-, rfl⟩⟩ := readRegister_next hx
    · rw [valueOfPayload_payloadOf]
      exact .readPasses x _
    · exact .readFails x
  · obtain ⟨w, -, ht, hs, rfl⟩ := writeRegister_next hx
    obtain rfl : Interface.transport = f := (iface_wrOf x).symm.trans (iface_of_decode hd)
    exact .write x w _ _ _ _ hd ht hs
  · obtain ⟨-, rfl⟩ := triggerEepromWrite_next hx
    obtain rfl : Interface.transport = f := iface_of_decode hd
    exact .trigger _ _ _ hd

/-- A line that answers has one of the effects. -/
theorem lineEffect_of_runLine {l : Line} {s s' : State} (h : runLine l s = .next s') : LineEffect s l s' := by
  cases l with
  | op f bytes =>
    obtain ⟨i, hd, hi⟩ := runCall_next h
    exact lineEffect_of_exec hd hi
  | set f =>
    obtain ⟨_, rec', -, -, rfl⟩ := runSet_next h
    exact .caller (.record rec') trivial
  | make rec =>
    cases h
    exact .caller (.record rec) trivial
  | openHandle =>
    obtain ⟨-, rfl | rfl⟩ := runOpen_next h
    · exact .setUpFails
    · exact .setUpPasses .opened
  | bindHandle a =>
    obtain ⟨-, ⟨ha, rfl⟩ | ⟨-, rfl⟩⟩ := runBind_next h
    · exact .bind a ha
    · exact .caller (.error .invalidAddress) trivial
  | configureHandle =>
    obtain ⟨-, rfl | rfl⟩ := runConfigure_next h
    · exact .setUpFails
    · exact .setUpPasses .configured

/-- Everything a step can do, by its effect: nothing, the end of the sequence, or the effect of its first line on the state
with that line taken off. -/
theorem step_effect {s s' : State} (h : step s = .next s') :
    s' = s ∨ (s.lines = [] ∧ s' = { s with status := .success }) ∨
    (∃ l rest, s.status = .running ∧ s.lines = l :: rest ∧ LineEffect { s with lines := rest } l s') := by
  rcases step_next h with ⟨-, rfl⟩ | ⟨-, hl, rfl⟩ | ⟨l, rest, hs, hl, hrun⟩
  · exact .inl rfl
  · exact .inr (.inl ⟨hl, rfl⟩)
  · exact .inr (.inr ⟨l, rest, hs, hl, lineEffect_of_runLine hrun⟩)

/-! ### The state after a write, whichever way it ended -/

section AfterWrite

variable (res : Except OpError Unit) (s : State)

@[simp] theorem afterWrite_reg : (s.afterWrite res).reg = s.reg := by cases res <;> rfl
@[simp] theorem afterWrite_nv : (s.afterWrite res).nv = s.nv := by cases res <;> rfl
@[simp] theorem afterWrite_devAddr : (s.afterWrite res).devAddr = s.devAddr := by cases res <;> rfl
@[simp] theorem afterWrite_p1Swapped : (s.afterWrite res).p1Swapped = s.p1Swapped := by cases res <;> rfl

end AfterWrite

/-! ### The wire tuples and wire values that the transport makes -/

/-- A read that passes puts a legal tuple on the wire (R36, R58). -/
theorem transferLegal_readPasses (x : RegId) (v : Word16) :
    transferLegal ⟨.read, x.id, some (payloadOf x v), true⟩ = true := by
  simp [transferLegal]

/-- A read that fails puts a legal tuple on the wire (R62). -/
theorem transferLegal_readFails (x : RegId) : transferLegal ⟨.read, x.id, none, false⟩ = true := by
  simp [transferLegal]

/-- A write of a value with no reserved bit puts a legal tuple on the wire (R36, R59). -/
theorem transferLegal_write {x : RegId} {v : Word16} (h : reservedClear x v = true) (ok : Bool) :
    transferLegal ⟨.write, x.id, some (payloadOf x v), ok⟩ = true := by
  simp [transferLegal, valueOfPayload_payloadOf, reservedClear_and_width h]

/-- The trigger puts a legal tuple on the wire (R120). -/
theorem transferLegal_trigger (ok : Bool) : transferLegal ⟨.write, cmdE2W, some [], ok⟩ = true := by
  simp [transferLegal]

/-- What a read leaves in `t` has no bit above the register's width (R37). -/
theorem wireValueLegal_read (x : RegId) (v : Word16) : wireValueLegal ⟨v &&& x.width, .read x⟩ = true := by
  simp [wireValueLegal, BitVec.and_assoc]

/-- An encoded wire value is legal exactly when it has no reserved bit (R19). -/
theorem wireValueLegal_encoded {w : WireValue} {x : RegId} (h : w.source = .encoded x) :
    wireValueLegal w = reservedClear x w.value := by
  simp [wireValueLegal, h]

/-! ### The invariant under each update of the state -/

section Invariant

variable {s : State} (h : Inv s)

include h

theorem inv_raise (e : OpError) : Inv (s.raise e) := ⟨h.devAddr, h.wireValue, fun _ => rfl, h.wire⟩

theorem inv_setR (rec : Record) : Inv (s.setR rec) := ⟨h.devAddr, h.wireValue, h.ended, h.wire⟩

theorem inv_setSub (x : SubResult) : Inv (s.setSub x) := ⟨h.devAddr, h.wireValue, h.ended, h.wire⟩

theorem inv_useDraw : Inv s.useDraw := ⟨h.devAddr, h.wireValue, h.ended, h.wire⟩

theorem inv_setDevice (reg nv : Regs) : Inv { s with reg := reg, nv := nv } :=
  ⟨h.devAddr, h.wireValue, h.ended, h.wire⟩

theorem inv_setHandle (handle : Handle) : Inv { s with handle := handle } :=
  ⟨h.devAddr, h.wireValue, h.ended, h.wire⟩

theorem inv_bind {a : Nat} (ha : addressLegal a = true) : Inv { s with devAddr := a, handle := .bound } :=
  ⟨ha, h.wireValue, h.ended, h.wire⟩

theorem inv_setT {v : Word16} {src : Source} (hv : wireValueLegal ⟨v, src⟩ = true) : Inv (s.setT v src) where
  devAddr := h.devAddr
  wireValue := by rintro w ⟨⟩; exact hv
  ended := h.ended
  wire := h.wire

theorem inv_log {x : Transfer} (hx : transferLegal x = true) : Inv (s.log x) where
  devAddr := h.devAddr
  wireValue := h.wireValue
  ended := h.ended
  wire := by
    intro y hy
    rcases List.mem_append.mp hy with hold | hnew
    · exact h.wire y hold
    · exact List.mem_singleton.mp hnew ▸ hx

theorem inv_afterWrite (res : Except OpError Unit) : Inv (s.afterWrite res) := by
  rcases afterWrite_cases res s with hok | ⟨e, -, herr⟩
  · rw [hok]
    exact h
  · rw [herr]
    exact inv_raise h e

/-- A running sequence may have any lines left. -/
theorem inv_setLines (hs : s.status = .running) (ls : List Line) : Inv { s with lines := ls } :=
  ⟨h.devAddr, h.wireValue, fun hn => absurd hs hn, h.wire⟩

/-- A sequence with no line left may end. -/
theorem inv_succeed (hl : s.lines = []) : Inv { s with status := .success } :=
  ⟨h.devAddr, h.wireValue, fun _ => hl, h.wire⟩

theorem inv_callerUpdate {c : CallerUpdate} (legal : c.Legal) : Inv (c.apply s) := by
  cases c with
  | record rec => exact inv_setR h rec
  | word x w => exact inv_setT h ((wireValueLegal_encoded rfl).trans legal)
  | sub v => exact inv_setSub h v
  | error e => exact inv_raise h e

/-- Every effect of a line keeps the invariant. The write is the one case that needs it of `t`: an encoded value carries no
reserved bit, so its tuple carries none. -/
theorem inv_lineEffect {l : Line} {s' : State} (he : LineEffect s l s') : Inv s' := by
  cases he with
  | caller c legal => exact inv_callerUpdate h legal
  | readPasses x v =>
    exact inv_setT (inv_log (inv_useDraw h) (transferLegal_readPasses x v)) (wireValueLegal_read x v)
  | readFails x => exact inv_raise (inv_log (inv_useDraw h) (transferLegal_readFails x)) _
  | write x w reg nv ok res decoded operand source =>
    have hclear : reservedClear x w.value = true := (wireValueLegal_encoded source).symm.trans (h.wireValue w operand)
    exact inv_afterWrite (inv_setDevice (inv_log (inv_useDraw h) (transferLegal_write hclear ok)) reg nv) res
  | trigger nv ok res decoded =>
    exact inv_afterWrite (inv_setDevice (inv_log (inv_useDraw h) (transferLegal_trigger ok)) s.reg nv) res
  | setUpPasses handle => exact inv_setHandle (inv_useDraw h) handle
  | setUpFails => exact inv_raise (inv_useDraw h) _
  | bind a legal => exact inv_bind h legal

end Invariant

/-! ### The statements -/

/-- Settles O53: each effect a step can have keeps the invariant. -/
theorem stepKeepsInvariant : Obligations.StepKeepsInvariant := by
  intro s s' hinv h
  rcases step_effect h with rfl | ⟨hl, rfl⟩ | ⟨l, rest, hs, -, he⟩
  · exact hinv
  · exact inv_succeed hinv hl
  · exact inv_lineEffect (inv_setLines hinv hs rest) he

/-- An effect that changes a register or its EEPROM copy is a write's, or the trigger's, which leaves the registers
(R20, R24, R25). -/
theorem LineEffect.device {s s' : State} {l : Line} (he : LineEffect s l s') :
    (s'.reg = s.reg ∧ s'.nv = s.nv) ∨
    (∃ bytes, l = .op .transport bytes ∧
      ((∃ x, decode .transport bytes = .instr (wrOf x)) ∨
       (decode .transport bytes = .instr .e2w ∧ s'.reg = s.reg))) := by
  cases he with
  | write x w reg nv ok res decoded => exact .inr ⟨_, rfl, .inl ⟨x, decoded⟩⟩
  | trigger nv ok res decoded => exact .inr ⟨_, rfl, .inr ⟨decoded, by simp⟩⟩
  | caller | readPasses | readFails | setUpPasses | setUpFails | bind => exact .inl (by simp)

theorem wrOf_mem (x : RegId) : wrOf x ∈ [Instr.wrDiv, .wrMux, .wrBus] := by cases x <;> decide

/-- Settles O51: of all effects only a write's and the trigger's touch the device. -/
theorem onlyTransfersChangeTheDevice : Obligations.OnlyTransfersChangeTheDevice := by
  intro s s' h
  rcases step_effect h with rfl | ⟨-, rfl⟩ | ⟨l, rest, -, hl, he⟩
  · exact ⟨fun hne => absurd rfl hne, fun hne => absurd rfl hne⟩
  · exact ⟨fun hne => absurd rfl hne, fun hne => absurd rfl hne⟩
  · rcases he.device with ⟨hreg, hnv⟩ | ⟨bytes, rfl, ⟨x, hd⟩ | ⟨hd, hreg⟩⟩
    · exact ⟨fun hne => absurd hreg hne, fun hne => absurd hnv hne⟩
    · exact ⟨fun _ => ⟨bytes, rest, wrOf x, hl, hd, wrOf_mem x⟩,
        fun _ => ⟨bytes, rest, wrOf x, hl, hd, List.mem_append_left [Instr.e2w] (wrOf_mem x)⟩⟩
    · exact ⟨fun hne => absurd hreg hne, fun _ => ⟨bytes, rest, .e2w, hl, hd, by decide⟩⟩

/-- An effect keeps the switch, and the device address unless it is a binding's (R26, R99). -/
theorem LineEffect.address {s s' : State} {l : Line} (he : LineEffect s l s') :
    s'.p1Swapped = s.p1Swapped ∧
    (s'.devAddr = s.devAddr ∨ (l = .bindHandle s'.devAddr ∧ addressLegal s'.devAddr = true)) := by
  cases he with
  | bind a legal => exact ⟨rfl, .inr ⟨rfl, legal⟩⟩
  | caller | readPasses | readFails | write | trigger | setUpPasses | setUpFails => exact ⟨by simp, .inl (by simp)⟩

/-- Settles O52: of all effects only a binding's moves the device address, and none moves the switch. -/
theorem onlyBindingChangesTheDeviceAddress : Obligations.OnlyBindingChangesTheDeviceAddress := by
  intro s s' h
  rcases step_effect h with rfl | ⟨-, rfl⟩ | ⟨l, rest, -, hl, he⟩
  · exact ⟨rfl, fun hne => absurd rfl hne⟩
  · exact ⟨rfl, fun hne => absurd rfl hne⟩
  · obtain ⟨hswitch, haddr | ⟨rfl, legal⟩⟩ := he.address
    · exact ⟨hswitch, fun hne => absurd haddr hne⟩
    · exact ⟨hswitch, fun _ => ⟨rest, hl, (addressLegal_iff _).mp legal⟩⟩

end Sys2Proof.Proofs
end

section
/-! PROOFS. The combinational port list (R28) against the typed functions. -/

namespace Sys2Proof.Proofs

open Sys2Proof.Machine Sys2Proof.Laws

/-! ### The field signals carry a decoded record whole -/

theorem ofBool_beq_one (b : Bool) : (BitVec.ofBool b == 1#1) = b := by cases b <;> rfl

theorem drive_div_n {d : DivRegister} (h : d.n < 65536) (free : FieldPorts) : (free.drive (.div d)).n.toNat = d.n :=
  Nat.mod_eq_of_lt h

theorem drive_bus {b : BusRegister} (h : b.address < 256) (free : FieldPorts) : (free.drive (.bus b)).bus = b := by
  simp [FieldPorts.drive, FieldPorts.bus, ofBool_beq_one, Nat.mod_eq_of_lt h]

theorem drive_mux {m : MuxRegister} (h0 : m.prescaler0 < 256) (h1 : m.prescaler1 < 256) (free : FieldPorts) :
    (free.drive (.mux m)).mux = m := by
  simp [FieldPorts.drive, FieldPorts.mux, ofBool_beq_one, Nat.mod_eq_of_lt h0, Nat.mod_eq_of_lt h1]

/-- A decoded divisor fits its 16-bit signal (R81). -/
theorem divDec_n_lt (w : Word16) : (divDec w).n < 65536 := by
  have hv := (w.extractLsb' 0 8 ++ w.extractLsb' 14 2).isLt
  show (w.extractLsb' 0 8 ++ w.extractLsb' 14 2).toNat + 2 < 65536
  omega

/-- A divisor of the prescaler table fits its 8-bit signal (R90). -/
theorem preDec_lt (c : BitVec 2) : preDec c < 256 := by revert c; decide

/-! ### The ports of an encode -/

/-- An encode that succeeds drives the word, err 0 and valid 1; one that raises, its code and valid 0 (R28, R136). -/
theorem portEncode_ok {res : Except OpError Word16} {v : Word16} (h : res = .ok v) (free : PortOut) :
    (portEncode free res).wireOut = v ∧ (portEncode free res).err = 0#3 ∧ (portEncode free res).valid = 1#1 := by
  subst h
  exact ⟨rfl, rfl, rfl⟩

theorem portEncode_error {res : Except OpError Word16} {e : OpError} (h : res = .error e) (free : PortOut) :
    (portEncode free res).err = e.code ∧ (portEncode free res).valid = 0#1 := by
  subst h
  exact ⟨rfl, rfl⟩

/-- On an undefined select the block answers valid 0 (R28, R60). -/
theorem codecPort_undefined {i : PortIn} (h : i.opSel ∉ codecTable.map (·.sel)) (swapped : Bool) (free : PortOut) :
    (codecPort swapped free i).valid = 0#1 := by
  simp only [codecPort, lookupSelect_eq_none h]

/-- Settles O32: a decoded record fits its signals, and each encode's result is driven by what the encode function
answers. -/
theorem portsAgreeWithTypedCodec : Obligations.PortsAgreeWithTypedCodec := by
  intro swapped free w f
  refine ⟨⟨drive_div_n (divDec_n_lt w) free.f, rfl, rfl⟩,
    ⟨drive_mux (preDec_lt _) (preDec_lt _) free.f, rfl, rfl⟩,
    ⟨drive_bus (BitVec.isLt _) free.f, rfl, rfl⟩,
    ⟨fun v hv => portEncode_ok hv free, fun hn => portEncode_error (divEnc_error hn) free⟩,
    ⟨fun v hv => portEncode_ok hv free, fun hp => portEncode_error (muxEnc_error swapped hp) free⟩,
    ⟨fun v hv => portEncode_ok (congrArg (Except.map (BitVec.setWidth 16)) hv) free,
      fun ha => portEncode_error (congrArg (Except.map (BitVec.setWidth 16)) (busEnc_error (b := f.bus) ha)) free⟩,
    fun sel hsel => codecPort_undefined hsel swapped free⟩

end Sys2Proof.Proofs
end

section
/-! PROOFS. The bytes of a wire word and the address map of the register space (R31, R34, R37). -/

namespace Sys2Proof.Proofs

open Sys2Proof.Machine Sys2Proof.Laws

/-! ### Byte order -/

/-- The two payload bytes of a word as numbers: the low byte is transmitted first (R34). -/
theorem bytesOfWord_eq (w : Word16) : bytesOfWord w = [BitVec.ofNat 8 w.toNat, BitVec.ofNat 8 (w.toNat / 256)] := by
  simp only [bytesOfWord, BitVec.extractLsb', Nat.shiftRight_eq_div_pow, Nat.reducePow, Nat.div_one]

/-- The word of two bytes as a number: the second transmitted byte weighs 256 (R34). -/
theorem wordOfBytes_toNat (b1 b2 : Byte) : (wordOfBytes b1 b2).toNat = b2.toNat * 256 + b1.toNat := by
  rw [wordOfBytes, BitVec.toNat_append, ← Nat.shiftLeft_add_eq_or_of_lt b1.isLt, Nat.shiftLeft_eq]

/-- The bytes of a word are the ones it was made of (R34). -/
theorem bytesOfWord_wordOfBytes (b1 b2 : Byte) : bytesOfWord (wordOfBytes b1 b2) = [b1, b2] := by
  have h1 := b1.isLt
  have h2 := b2.isLt
  rw [bytesOfWord_eq, wordOfBytes_toNat]
  congr 2 <;> apply BitVec.eq_of_toNat_eq <;> rw [BitVec.toNat_ofNat] <;> omega

/-- MUX and DIV share one payload format; BUS alone is a single byte (R35, R36). -/
theorem payloadOf_of_ne_bus {x : RegId} (hx : x ≠ .bus) (w : Word16) : payloadOf x w = bytesOfWord w := by
  cases x with
  | div | mux => rfl
  | bus => exact absurd rfl hx

/-- Settles O13: the two conversions as arithmetic on the bytes, the same for both 16-bit registers. -/
theorem firstByteIsLowByte : Obligations.FirstByteIsLowByte := by
  refine ⟨fun x w hx => ?_, fun x b1 b2 hx => ?_⟩
  · rw [payloadOf_of_ne_bus hx]
    exact ⟨bytesOfWord_eq w, wordOfBytes_bytesOfWord w⟩
  · rw [payloadOf_of_ne_bus hx]
    exact ⟨wordOfBytes_toNat b1 b2, bytesOfWord_wordOfBytes b1 b2⟩

/-! ### The address map -/

/-- An id other than the three of the map names no register (R31). -/
theorem ofId_eq_none {id : Byte} (h : id ∉ [0x01#8, 0x02#8, 0x0D#8]) : RegId.ofId id = none := by
  simp only [List.mem_cons, List.not_mem_nil, or_false, not_or] at h
  simp [RegId.ofId, h]

/-- Each id of the map is a register's (R31). -/
theorem exists_register_of_mem {id : Byte} (h : id ∈ [0x01#8, 0x02#8, 0x0D#8]) : ∃ x : RegId, id = x.id := by
  simp only [List.mem_cons, List.not_mem_nil, or_false] at h
  rcases h with rfl | rfl | rfl
  exacts [⟨.div, rfl⟩, ⟨.mux, rfl⟩, ⟨.bus, rfl⟩]

/-- The three registers with the widths of their payloads (R37). -/
theorem id_len_mem (x : RegId) : (x.id, x.len) ∈ [(0x01#8, 2), (0x02#8, 2), (0x0D#8, 1)] := by cases x <;> decide

/-- The trigger takes no payload (R37, R120). -/
theorem memWrite_trigger_wrong_width {n : Nat} (h : n ≠ 0) (bytes : List Byte) (s : State) :
    memWrite cmdE2W n bytes s = .refused (.wrongPayloadWidth cmdE2W n) := by
  simp [memWrite, h]

/-- Settles O45: an id is a register's, the trigger's or outside the map, and each has its one width. -/
theorem accessOutsideTheMapIsRefused : Obligations.AccessOutsideTheMapIsRefused := by
  intro s id n bytes
  refine ⟨fun hid => memRead_unknown (ofId_eq_none hid) n s, fun hid => ?_, fun hn hid => ?_, fun hn hid => ?_⟩
  · have hregister : id ∉ [0x01#8, 0x02#8, 0x0D#8] := fun hm => hid (List.mem_append_left [0x3F#8] hm)
    have htrigger : id ≠ cmdE2W := fun he => hid (he ▸ by decide)
    exact memWrite_unknown (ofId_eq_none hregister) htrigger n bytes s
  · obtain ⟨x, rfl⟩ := exists_register_of_mem hid
    have hwidth : n ≠ x.len := fun he => hn (he ▸ id_len_mem x)
    exact memRead_wrong_width hwidth s
  · rcases List.mem_append (s := [0x01#8, 0x02#8, 0x0D#8]) (t := [0x3F#8]) |>.mp hid with hregister | htrigger
    · obtain ⟨x, rfl⟩ := exists_register_of_mem hregister
      have hwidth : n ≠ x.len := fun he => hn (he ▸ List.mem_append_left [(0x3F#8, 0)] (id_len_mem x))
      exact memWrite_wrong_width hwidth bytes s
    · obtain rfl := List.mem_singleton.mp htrigger
      have hwidth : n ≠ 0 := by
        rintro rfl
        exact hn (by decide)
      exact memWrite_trigger_wrong_width hwidth bytes s

end Sys2Proof.Proofs
end

section
/-! PROOFS. The codec raises its own three errors only, and reaches no address space (R30, R135). -/

namespace Sys2Proof.Proofs

open Sys2Proof.Machine Sys2Proof.Safety Sys2Proof.Laws

/-! ### No encode function answers an IoError -/

theorem divEnc_ne_ioError (d : DivRegister) : divEnc d ≠ .error .ioError := by
  rcases divEnc_cases d with ⟨-, -, h⟩ | ⟨-, h⟩ <;> simp [h]

theorem muxEnc_ne_ioError (swapped : Bool) (m : MuxRegister) : muxEnc swapped m ≠ .error .ioError := by
  rcases muxEnc_cases swapped m with ⟨c0, c1, -, -, h⟩ | ⟨-, h⟩ <;> simp [h]

theorem busEnc_map_ne_ioError (b : BusRegister) : (busEnc b).map (fun v => v.setWidth 16) ≠ .error .ioError := by
  rcases busEnc_cases b with ⟨-, -, h⟩ | ⟨-, h⟩ <;> simp [h, Except.map]

theorem preEnc_ne_ioError (p : Nat) : preEnc p ≠ .error .ioError := by
  rcases preEnc_cases p with ⟨c, -, h⟩ | ⟨-, h⟩ <;> simp [h]

/-! ### The outcome of a codec operation -/

theorem decodeInto_status {f : Word16 → Record} {s s' : State} (h : decodeInto f s = .next s') :
    s'.status = s.status := by
  obtain ⟨w, -, rfl⟩ := decodeInto_next h
  exact setR_status s _

theorem encodeInto_status {x : RegId} {res : Except OpError Word16} {s s' : State} (hres : res ≠ .error .ioError)
    (h : encodeInto x res s = .next s') : s'.status = s.status ∨ ∃ e, e ≠ .ioError ∧ s'.status = .failed e := by
  rcases encodeInto_next h with ⟨w, -, rfl⟩ | ⟨e, he, rfl⟩
  · exact .inl rfl
  · exact .inr ⟨e, fun hio => hres (hio ▸ he), rfl⟩

/-- A codec operation keeps the outcome or raises an error of the codec (R134, R135). -/
theorem exec_codec_status {i : Instr} {s s' : State} (hi : isCodec i = true) (h : exec i s = .next s') :
    s'.status = s.status ∨ ∃ e, e ≠ .ioError ∧ s'.status = .failed e := by
  cases i with
  | divDec => exact .inl (decodeInto_status (f := fun w => .div (divDec w)) h)
  | muxDec => exact .inl (decodeInto_status (f := fun w => .mux (muxDec s.p1Swapped w)) h)
  | busDec => exact .inl (decodeInto_status (f := fun w => .bus (busDec (w.extractLsb' 0 8))) h)
  | divEnc =>
    obtain ⟨d, -, hd⟩ := execDivEnc_next h
    exact encodeInto_status (divEnc_ne_ioError d) hd
  | muxEnc =>
    obtain ⟨m, -, hm⟩ := execMuxEnc_next h
    exact encodeInto_status (muxEnc_ne_ioError s.p1Swapped m) hm
  | busEnc =>
    obtain ⟨b, -, hb⟩ := execBusEnc_next h
    exact encodeInto_status (busEnc_map_ne_ioError b) hb
  | preDec code =>
    cases h
    exact .inl rfl
  | preEnc p =>
    rcases execPreEnc_next h with ⟨c, -, rfl⟩ | ⟨e, he, rfl⟩
    · exact .inl rfl
    · exact .inr ⟨e, fun hio => preEnc_ne_ioError p (hio ▸ he), rfl⟩
  | rdDiv | rdMux | rdBus | wrDiv | wrMux | wrBus | e2w => cases hi

/-- Settles O30: a codec operation is an update of the caller's own fields, and its error is never an IoError. -/
theorem codecNeverTouchesTransport : Obligations.CodecNeverTouchesTransport := by
  intro i s s' hi h
  have hstatus := exec_codec_status hi h
  obtain ⟨c, -, rfl⟩ := exec_codec_next hi h
  refine ⟨c.apply_reg s, c.apply_nv s, c.apply_devAddr s, c.apply_handle s, c.apply_wire s, c.apply_draws s,
    c.apply_drawCount s, c.apply_p1Swapped s, ?_⟩
  rcases hstatus with hs | ⟨e, hio, hs⟩
  · exact .inl hs
  · cases e with
    | invalidDivisor => exact .inr (.inl hs)
    | invalidPrescaler => exact .inr (.inr (.inl hs))
    | invalidAddress => exact .inr (.inr (.inr hs))
    | ioError => exact absurd rfl hio

end Sys2Proof.Proofs
end

section
/-! PROOFS. What a write leaves in its register, that nothing else changes it, and what a read then returns (R20, R39, R40,
R43). -/

namespace Sys2Proof.Proofs

open Sys2Proof.Machine Sys2Proof.Safety Sys2Proof.Laws

/-! ### The operations of a register -/

theorem exec_wrOf (x : RegId) (s : State) : exec (wrOf x) s = writeRegister x s := by cases x <;> rfl

theorem exec_rdOf (x : RegId) (s : State) : exec (rdOf x) s = readRegister x s := by cases x <;> rfl

/-- Each of the three writes is its register's (R61). -/
theorem eq_wrOf_of_mem_pairs {x : RegId} {i : Instr} (h : (x, i) ∈ [(.div, .wrDiv), (.mux, .wrMux), (.bus, .wrBus)]) :
    i = wrOf x := by
  simp only [List.mem_cons, Prod.mk.injEq, List.not_mem_nil, or_false] at h
  rcases h with ⟨rfl, rfl⟩ | ⟨rfl, rfl⟩ | ⟨rfl, rfl⟩ <;> rfl

theorem exists_wrOf_of_mem {i : Instr} (h : i ∈ [Instr.wrDiv, .wrMux, .wrBus]) : ∃ x, i = wrOf x := by
  simp only [List.mem_cons, List.not_mem_nil, or_false] at h
  rcases h with rfl | rfl | rfl
  exacts [⟨.div, rfl⟩, ⟨.mux, rfl⟩, ⟨.bus, rfl⟩]

/-! ### A write -/

@[simp] theorem afterWrite_t (res : Except OpError Unit) (s : State) : (s.afterWrite res).t = s.t := by cases res <;> rfl

/-- The value put into the device is the one the payload was made of (R34, R36). -/
theorem put_valueOfPayload (x : RegId) (v : Word16) (g : Regs) :
    g.put x (valueOfPayload (payloadOf x v)) = g.put x v := by
  rw [valueOfPayload_payloadOf, put_and_width]

/-- What a write of the payload of v leaves in the registers; the new value if it passed (R20, R43). -/
theorem regAfterWrite_payload_cases (d : Draw) (x : RegId) (v : Word16) (g : Regs) :
    (d.fails = true ∧ regAfterWrite d x (valueOfPayload (payloadOf x v)) g = g) ∨
    regAfterWrite d x (valueOfPayload (payloadOf x v)) g = g.put x v :=
  put_valueOfPayload x v g ▸ regAfterWrite_cases d x _ g

/-- `WR X` of an encoded value on a configured handle always answers (R61, R115 to R117). -/
theorem writeRegister_encoded {x : RegId} {v : Word16} {s : State} (hc : s.handle = .configured)
    (ht : s.t = some ⟨v, .encoded x⟩) :
    writeRegister x s =
      .next (({ s.useDraw.log ⟨.write, x.id, some (payloadOf x v), !s.nextDraw.fails⟩ with
          reg := regAfterWrite s.nextDraw x (valueOfPayload (payloadOf x v)) s.reg
          nv := nvAfterWrite s.nextDraw x (valueOfPayload (payloadOf x v)) s.reg.bus s.nv } : State).afterWrite
        (if s.nextDraw.fails then .error .ioError else .ok ())) := by
  simp only [writeRegister, hc, ht, if_true, memWrite_register]

/-- Settles O40: a write that fails is the error entry on a state whose register and copy are each the draw's choice. -/
theorem failedWriteLeavesOldOrNew : Obligations.FailedWriteLeavesOldOrNew := by
  intro s v x i hi hc ht hf
  obtain rfl := eq_wrOf_of_mem_pairs hi
  refine ⟨regAfterWrite s.nextDraw x (valueOfPayload (payloadOf x v)) s.reg,
    nvAfterWrite s.nextDraw x (valueOfPayload (payloadOf x v)) s.reg.bus s.nv, ?_, ?_, ?_⟩
  · rw [exec_wrOf, writeRegister_encoded hc ht, hf]
    rfl
  · exact (regAfterWrite_payload_cases s.nextDraw x v s.reg).imp_left And.right
  · rw [← put_valueOfPayload x v s.nv]
    exact nvAfterWrite_cases ..

/-- A write that answers leaves its operand in `t` and the old or the new value in the register (R20, R43). -/
theorem writeRegister_reg {x : RegId} {s s' : State} (h : writeRegister x s = .next s') :
    ∃ w, s.t = some w ∧ s'.t = some w ∧ (s'.reg = s.reg ∨ s'.reg = s.reg.put x w.value) := by
  obtain ⟨w, -, ht, -, rfl⟩ := writeRegister_next h
  refine ⟨w, ht, by simp [ht], ?_⟩
  rw [afterWrite_reg]
  exact (regAfterWrite_payload_cases s.nextDraw x w.value s.reg).imp_left And.right

/-- A write after which the sequence runs on has passed: the register holds the new value (R20). -/
theorem writeRegister_reg_of_running {x : RegId} {s s' : State} {w : WireValue} (h : writeRegister x s = .next s')
    (ht : s.t = some w) (hr : s'.status = .running) : s'.reg = s.reg.put x w.value := by
  obtain ⟨w', -, ht', -, rfl⟩ := writeRegister_next h
  obtain rfl : w = w' := Option.some.inj (ht.symm.trans ht')
  rw [afterWrite_reg]
  rcases regAfterWrite_payload_cases s.nextDraw x w.value s.reg with ⟨hf, -⟩ | hreg
  · rw [if_pos hf] at hr
    cases hr
  · exact hreg

/-- Settles O42: the second write puts into the register the value that the first left there, or nothing. -/
theorem writingTwiceIsWritingOnce : Obligations.WritingTwiceIsWritingOnce := by
  intro wr s s₁ s₂ hwr _ h₁ hr h₂
  obtain ⟨x, rfl⟩ := exists_wrOf_of_mem hwr
  rw [exec_wrOf] at h₁ h₂
  obtain ⟨w, ht, ht₁, -⟩ := writeRegister_reg h₁
  have hreg₁ : s₁.reg = s.reg.put x w.value := writeRegister_reg_of_running h₁ ht hr
  obtain ⟨w', ht', -, hsame | hput⟩ := writeRegister_reg h₂
  · exact hsame
  · obtain rfl : w = w' := Option.some.inj (ht₁.symm.trans ht')
    rw [hput, hreg₁, put_put]

/-! ### Everything that is no write of the register keeps it -/

/-- A line that answers keeps the registers, unless it calls a write (R20). -/
theorem runLine_reg {l : Line} {s s' : State} (h : runLine l s = .next s') :
    s'.reg = s.reg ∨
    ∃ bytes y, l = .op .transport bytes ∧ decode .transport bytes = .instr (wrOf y) ∧ writeRegister y s = .next s' := by
  rcases (lineEffect_of_runLine h).device with ⟨hreg, -⟩ | ⟨bytes, rfl, ⟨y, hd⟩ | ⟨-, hreg⟩⟩
  · exact .inl hreg
  · obtain ⟨i, hi, hexec⟩ := runCall_next h
    obtain rfl : wrOf y = i := Decoded.instr.inj (hd.symm.trans hi)
    exact .inr ⟨bytes, y, rfl, hd, exec_wrOf y s ▸ hexec⟩
  · exact .inl hreg

/-- A step whose line is no write of x keeps register x: a write of another register leaves it alone (R20, R40). -/
theorem step_keeps_register {x : RegId} {s s' : State} (hx : nextLineCalls (wrOf x) s = false)
    (h : step s = .next s') : s'.reg.value x = s.reg.value x := by
  rcases step_next h with ⟨-, rfl⟩ | ⟨-, -, rfl⟩ | ⟨l, rest, -, hl, hrun⟩
  · rfl
  · rfl
  · rcases runLine_reg hrun with hreg | ⟨bytes, y, rfl, hd, hwrite⟩
    · rw [hreg]
    · have hne : x ≠ y := fun he => ne_of_nextLineCalls_eq_false hx hl hd (he ▸ rfl)
      obtain ⟨w, -, -, hold | hput⟩ := writeRegister_reg hwrite
      · rw [hold]
      · rw [hput, value_put_of_ne hne]

/-- Any number of steps none of which writes x keep register x (R40). -/
theorem runSteps_keeps_register {x : RegId} {k : Nat} {s s' : State} (hx : neverCallsWithin (wrOf x) k s)
    (h : runSteps k s = .next s') : s'.reg.value x = s.reg.value x := by
  induction k generalizing s with
  | zero =>
    cases h
    rfl
  | succ k ih =>
    obtain ⟨u, hstep, hrest⟩ := runSteps_succ_next h
    obtain ⟨hline, hlater⟩ := neverCallsWithin_succ hx hstep
    exact (ih hlater hrest).trans (step_keeps_register hline hstep)

/-! ### A read -/

/-- A read after which the sequence runs on has passed: `t` agrees with the register in its defined bits (R19, R20). -/
theorem readRegister_t_of_running {x : RegId} {s s' : State} (h : readRegister x s = .next s')
    (hr : s'.status = .running) :
    ∃ v, s'.t = some v ∧ v.source = .read x ∧ v.value &&& x.mask = s.reg.value x &&& x.mask := by
  obtain ⟨-, ⟨-, rfl⟩ | ⟨-, rfl⟩⟩ := readRegister_next h
  · refine ⟨_, rfl, rfl, ?_⟩
    rw [valueOfPayload_payloadOf, readValue_and_width, readValue_and_mask]
  · cases hr

/-- The defined bits of a register in which a value was put are that value's (R19). -/
theorem value_put_and_mask (x : RegId) (v : Word16) (g : Regs) : (g.put x v).value x &&& x.mask = v &&& x.mask := by
  rw [value_put, BitVec.and_assoc, BitVec.and_comm x.width, mask_and_width]

/-- A read returns what the register held before any number of steps that do not write it (R40). -/
theorem read_after_steps {x : RegId} {k : Nat} {s s₂ s₃ : State} (hx : neverCallsWithin (wrOf x) k s)
    (hrun : runSteps k s = .next s₂) (hread : readRegister x s₂ = .next s₃) (hr : s₃.status = .running) :
    ∃ v, s₃.t = some v ∧ v.source = .read x ∧ v.value &&& x.mask = s.reg.value x &&& x.mask := by
  rw [← runSteps_keeps_register hx hrun]
  exact readRegister_t_of_running hread hr

/-- Settles O41: the write leaves its value in the register, the steps between keep it, the read returns it. -/
theorem readReturnsLatestWrite : Obligations.ReadReturnsLatestWrite := by
  intro x wr rd hmem
  obtain ⟨rfl, rfl⟩ : wr = wrOf x ∧ rd = rdOf x := by
    simp only [List.mem_cons, Prod.mk.injEq, List.not_mem_nil, or_false] at hmem
    rcases hmem with ⟨rfl, rfl, rfl⟩ | ⟨rfl, rfl, rfl⟩ | ⟨rfl, rfl, rfl⟩ <;> exact ⟨rfl, rfl⟩
  simp only [exec_wrOf, exec_rdOf]
  refine ⟨fun s s₁ s₂ s₃ w k ht hwrite hr₁ hx hrun hread hr => ?_, fun s s₂ s₃ k => read_after_steps⟩
  rw [← value_put_and_mask x w.value s.reg, ← writeRegister_reg_of_running hwrite ht hr₁]
  exact read_after_steps hx hrun hread hr

end Sys2Proof.Proofs
end

section
/-! PROOFS. The spelling of operations: a select and its two bytes, the tables read in both directions, the decoder and the
encoder as inverses, and what a step does with a call (R56, R57, R60). -/

namespace Sys2Proof.Proofs

open Sys2Proof.Machine Sys2Proof.Laws

/-! ### A select and its two bytes -/

/-- The two bytes of a select as numbers, low byte first (log 3). -/
theorem bytesOfSelect_eq (sel : Select9) :
    bytesOfSelect sel = [BitVec.ofNat 8 sel.toNat, BitVec.ofNat 8 (sel.toNat / 256)] := by
  have hlow : sel.setWidth 8 = BitVec.ofNat 8 sel.toNat := BitVec.eq_of_toNat_eq (by simp)
  have hhigh : (sel >>> 8).setWidth 8 = BitVec.ofNat 8 (sel.toNat / 256) :=
    BitVec.eq_of_toNat_eq (by simp [Nat.shiftRight_eq_div_pow])
  rw [bytesOfSelect, hlow, hhigh]

/-- The number that two bytes spell, the second of which weighs 256 (log 3). -/
theorem toNat_bytes_append (b0 b1 : Byte) : (b1 ++ b0).toNat = b1.toNat * 256 + b0.toNat :=
  wordOfBytes_toNat b0 b1

/-- Two bytes hold a select exactly when they are the bytes of it: the layout of log 3 loses nothing. -/
theorem selectOfBytes_eq_some_iff {b0 b1 : Byte} {sel : Select9} :
    selectOfBytes b0 b1 = some sel ↔ [b0, b1] = bytesOfSelect sel := by
  have h0 := b0.isLt
  have hsel := sel.isLt
  have hbytes := toNat_bytes_append b0 b1
  rw [bytesOfSelect_eq]
  unfold selectOfBytes
  split
  case isTrue hb1 =>
    simp only [Option.some.injEq, List.cons.injEq, and_true, ← BitVec.toNat_inj, BitVec.toNat_setWidth,
      BitVec.toNat_ofNat, hbytes]
    omega
  case isFalse hb1 =>
    simp only [reduceCtorEq, List.cons.injEq, and_true, ← BitVec.toNat_inj, BitVec.toNat_ofNat, false_iff]
    omega

/-! ### The tables, read in both directions -/

/-- In a table without a repeated select, each row is the one its select looks up. -/
theorem lookupSelect_of_mem {rows : List SelectRow} {row : SelectRow} (hd : (rows.map (·.sel)).Nodup)
    (h : row ∈ rows) : lookupSelect rows row.sel = some row.instr := by
  induction rows with
  | nil => cases h
  | cons first rows ih =>
    obtain ⟨hfirst, hrest⟩ := List.nodup_cons.mp hd
    rcases List.mem_cons.mp h with rfl | hrows
    · exact if_pos rfl
    · have hne : row.sel ≠ first.sel := fun he => hfirst (List.mem_map.mpr ⟨row, hrows, he⟩)
      exact (if_neg hne).trans (ih hrest hrows)

/-- The bytes of a select that a table has are decoded to its operation. -/
theorem decodeSelect_of_lookup {table : List SelectRow} {sel : Select9} {i : Instr} (f : Interface)
    (h : lookupSelect table sel = some i) : decodeSelect f table (bytesOfSelect sel) = .instr i := by
  have hs : selectOfBytes (sel.setWidth 8) ((sel >>> 8).setWidth 8) = some sel := selectOfBytes_eq_some_iff.mpr rfl
  simp only [decodeSelect, bytesOfSelect, hs, h]

/-- The bytes of a select that a table lacks are refused, naming the interface and the select (R60). -/
theorem decodeSelect_of_not_mem {table : List SelectRow} {sel : Select9} (f : Interface)
    (h : sel ∉ table.map (·.sel)) : decodeSelect f table (bytesOfSelect sel) = .error (.undefinedSelect f sel) := by
  have hs : selectOfBytes (sel.setWidth 8) ((sel >>> 8).setWidth 8) = some sel := selectOfBytes_eq_some_iff.mpr rfl
  simp only [decodeSelect, bytesOfSelect, hs, lookupSelect_eq_none h]

/-- Bytes that decode against a table are the bytes of a select in it. -/
theorem spelling_of_decodeSelect {f : Interface} {table : List SelectRow} {bytes : List Byte} {i : Instr}
    (h : decodeSelect f table bytes = .instr i) : ∃ sel, ⟨sel, i⟩ ∈ table ∧ bytes = bytesOfSelect sel := by
  unfold decodeSelect at h
  split at h
  case h_2 => cases h
  case h_1 =>
    split at h
    case h_2 => cases h
    case h_1 sel hs =>
      split at h <;> cases h
      case h_1 hl => exact ⟨sel, mem_of_lookupSelect hl, selectOfBytes_eq_some_iff.mp hs⟩

/-- A row of CODEC9 decodes on the codec's select (R56). -/
theorem decode_codec_row {sel : Select9} {i : Instr} (h : ⟨sel, i⟩ ∈ codecTable) :
    decode .codec (bytesOfSelect sel) = .instr i :=
  decodeSelect_of_lookup .codec (lookupSelect_of_mem (by decide) h)

/-- A row of XFER9 decodes on the transport's select (R57). -/
theorem decode_transport_row {sel : Select9} {i : Instr} (h : ⟨sel, i⟩ ∈ transportTable) :
    decode .transport (bytesOfSelect sel) = .instr i :=
  decodeSelect_of_lookup .transport (lookupSelect_of_mem (by decide) h)

/-- Each row of the two tables is well-formed, and its select is what the encoder writes (R56, R57). -/
theorem encode_row {row : SelectRow} (h : row ∈ codecTable ++ transportTable) :
    row.instr.wellFormed = true ∧ encode row.instr = bytesOfSelect row.sel := by
  revert row
  decide

/-! ### The prescaler calls -/

/-- A 2-bit code survives its byte (R91). -/
theorem decode_preDec (code : BitVec 2) : decode .decodePrescaler [code.setWidth 8] = .instr (.preDec code) := by
  revert code
  decide

/-- A divisor below 256 survives its byte (R93, D4). -/
theorem decode_preEnc {divisor : Nat} (h : divisor < 256) :
    decode .encodePrescaler [BitVec.ofNat 8 divisor] = .instr (.preEnc divisor) := by
  simp only [decode, BitVec.toNat_ofNat, Nat.reducePow, Nat.mod_eq_of_lt h]

/-- What decodes as a direct call of PRE.DEC is the one byte of a code (R91). -/
theorem spelling_of_decodePrescaler {bytes : List Byte} {i : Instr} (h : decode .decodePrescaler bytes = .instr i) :
    ∃ code, i = .preDec code ∧ bytes = [code.setWidth 8] := by
  simp only [decode] at h
  split at h
  case h_2 => cases h
  case h_1 b =>
    split at h <;> cases h
    case isTrue hb =>
      refine ⟨b.setWidth 2, rfl, congrArg (fun c => [c]) (BitVec.eq_of_toNat_eq ?_)⟩
      simp only [BitVec.toNat_setWidth]
      omega

/-- What decodes as a direct call of PRE.ENC is the one byte of a divisor (R93). -/
theorem spelling_of_encodePrescaler {bytes : List Byte} {i : Instr} (h : decode .encodePrescaler bytes = .instr i) :
    ∃ b : Byte, i = .preEnc b.toNat ∧ bytes = [b] := by
  simp only [decode] at h
  split at h <;> cases h
  exact ⟨_, rfl, rfl⟩

/-! ### Decoder and encoder as inverses -/

/-- Settles O1: a select operation stands in its interface's table, and a prescaler call's operand fits its byte. -/
theorem decodeInvertsEncode : Obligations.DecodeInvertsEncode := by
  intro i hw
  cases i with
  | divDec | divEnc | muxDec | muxEnc | busDec | busEnc => exact decode_codec_row (by decide)
  | rdDiv | rdMux | rdBus | wrDiv | wrMux | wrBus | e2w => exact decode_transport_row (by decide)
  | preDec code => exact decode_preDec code
  | preEnc divisor => exact decode_preEnc (of_decide_eq_true hw)

/-- Settles O2: what decodes is a row's select or a prescaler call's one byte, and the encoder writes the same bytes. -/
theorem decodedCallHasOneSpelling : Obligations.DecodedCallHasOneSpelling := by
  intro f bytes i h
  have hf := iface_of_decode h
  cases f with
  | codec =>
    obtain ⟨sel, hrow, rfl⟩ := spelling_of_decodeSelect h
    obtain ⟨hw, he⟩ := encode_row (List.mem_append_left transportTable hrow)
    exact ⟨hw, hf, he⟩
  | transport =>
    obtain ⟨sel, hrow, rfl⟩ := spelling_of_decodeSelect h
    obtain ⟨hw, he⟩ := encode_row (List.mem_append_right codecTable hrow)
    exact ⟨hw, hf, he⟩
  | decodePrescaler =>
    obtain ⟨code, rfl, rfl⟩ := spelling_of_decodePrescaler h
    exact ⟨rfl, hf, rfl⟩
  | encodePrescaler =>
    obtain ⟨b, rfl, rfl⟩ := spelling_of_encodePrescaler h
    exact ⟨decide_eq_true b.isLt, hf, by simp [encode]⟩

/-- Settles O3: six rows of the two tables and two prescaler calls, their bytes written out. -/
theorem selectWordsDecodeAsTabled : Obligations.SelectWordsDecodeAsTabled :=
  ⟨decode_codec_row (sel := 0x001#9) (by decide), decode_codec_row (sel := 0x102#9) (by decide),
    decode_codec_row (sel := 0x00D#9) (by decide), decode_transport_row (sel := 0x001#9) (by decide),
    decode_transport_row (sel := 0x10D#9) (by decide), decode_transport_row (sel := 0x13F#9) (by decide),
    decode_preDec 0b11#2, decode_preEnc (by decide)⟩

/-! ### A call as the next line of a running sequence -/

/-- A call of bytes that spell no operation is refused with the decoder's reason (R60). -/
theorem step_undecodable_call {s : State} {f : Interface} {bytes : List Byte} {rest : List Line} {e : DecodeError}
    (hs : s.status = .running) (hl : s.lines = .op f bytes :: rest) (hd : decode f bytes = .error e) :
    step s = .refused (.noSuchOperation e) := by
  rw [step_line hs hl]
  simp only [runLine, runCall, hd]

/-- Settles O4: the select is in no row of the interface's table, so the call spells no operation. -/
theorem undefinedSelectsAreRefused : Obligations.UndefinedSelectsAreRefused :=
  ⟨fun _ _ _ hs hl hsel => step_undecodable_call hs hl (decodeSelect_of_not_mem (table := codecTable) .codec hsel),
    fun _ _ _ hs hl hsel =>
      step_undecodable_call hs hl (decodeSelect_of_not_mem (table := transportTable) .transport hsel)⟩

/-- A bare table word is read by decoding the call it stands for (log 2). -/
theorem decode_tableCall {nbits w : Nat} {i : Instr} (h : decodeTableWord nbits w = some i) :
    decode (tableCall nbits w).1 (tableCall nbits w).2 = .instr i := by
  unfold decodeTableWord at h
  split at h <;> cases h
  assumption

/-- Settles O6: the placed call is the first line of a running sequence, and it decodes to the operation. -/
theorem placedTableWordRunsNext : Obligations.PlacedTableWordRunsNext := by
  intro s nbits w i h
  have hd := decode_tableCall h
  rw [State.withFetchWord, step_line (placeCall_status ..) (placeCall_lines ..)]
  simp only [runLine, runCall, hd]

end Sys2Proof.Proofs
end

section
/-! PROOFS. Decoding keeps the defined bits of a wire value and no other: encoding the decoded record gives the value with
its reserved bits cleared (R19, R59). -/

namespace Sys2Proof.Proofs

open Sys2Proof.Machine Sys2Proof.Safety Sys2Proof.Laws

/-! ### The decode functions see defined bits only -/

/-- A field that lies inside a mask is the same in the masked word. -/
theorem extractLsb'_and_of_ones {n start len : Nat} {m : BitVec n} (h : m.extractLsb' start len = BitVec.allOnes len)
    (w : BitVec n) : (w &&& m).extractLsb' start len = w.extractLsb' start len := by
  rw [BitVec.extractLsb'_and, h, BitVec.and_allOnes]

/-- A bit that lies inside a mask is the same in the masked word. -/
theorem getLsbD_and_of_true {n k : Nat} {m : BitVec n} (h : m.getLsbD k = true) (w : BitVec n) :
    (w &&& m).getLsbD k = w.getLsbD k := by
  rw [BitVec.getLsbD_and, h, Bool.and_true]

/-- DIV.DEC ignores bits 13..8 (R81). -/
theorem divDec_and_mask (w : Word16) : divDec (w &&& RegId.div.mask) = divDec w := by
  simp (disch := decide) only [divDec, extractLsb'_and_of_ones]

/-- MUX.DEC ignores bits 13..7, under either setting of the switch (R95, R99). -/
theorem muxDec_and_mask (swapped : Bool) (w : Word16) : muxDec swapped (w &&& RegId.mux.mask) = muxDec swapped w := by
  simp (disch := decide) only [muxDec, prescaler1Code, extractLsb'_and_of_ones, getLsbD_and_of_true]

/-- BUS.DEC ignores bits 7..4 (R70). -/
theorem busDec_and_mask (b : Byte) : busDec (b &&& 0x0F#8) = busDec b := by
  simp (disch := decide) only [busDec, wcBit, extractLsb'_and_of_ones, getLsbD_and_of_true]

/-- The defined bits of a BUS wire value lie in the low half of its byte (R15, R19). -/
theorem lowByte_and_mask (w : Word16) : (w &&& RegId.bus.mask).extractLsb' 0 8 = w.extractLsb' 0 8 &&& 0x0F#8 :=
  BitVec.extractLsb'_and

/-- Decoding depends on the defined bits alone (R19, R59). -/
theorem decodeOf_and_mask (swapped : Bool) (x : RegId) (w : Word16) :
    decodeOf swapped x (w &&& x.mask) = decodeOf swapped x w := by
  cases x with
  | div => exact congrArg Record.div (divDec_and_mask w)
  | mux => exact congrArg Record.mux (muxDec_and_mask swapped w)
  | bus => rw [decodeOf, decodeOf, lowByte_and_mask, busDec_and_mask]

/-! ### A decoded record is representable -/

/-- The divisor DIV.DEC answers is a 10-bit value plus 2 (R81). -/
theorem divDec_n_range (w : Word16) : 2 ≤ (divDec w).n ∧ (divDec w).n ≤ 1025 := by
  have hv := (w.extractLsb' 0 8 ++ w.extractLsb' 14 2).isLt
  have hn : (divDec w).n = (w.extractLsb' 0 8 ++ w.extractLsb' 14 2).toNat + 2 := rfl
  omega

/-- A decoded prescaler is a divisor of the table (R90, R91). -/
theorem preDec_mem (c : BitVec 2) : preDec c ∈ [1, 2, 4, 8] := preDec_eq_pow c ▸ pow_code_mem c

/-- The 3 address bits of a byte added to the base 0x58: no carry, so `|` is `+` (R70). -/
theorem busDec_address (b : Byte) : (busDec b).address = 0x58 + (b.extractLsb' 0 3).toNat := by
  have hor : ∀ y : BitVec 3, (0x58#8 ||| y.setWidth 8).toNat = 0x58 + y.toNat := by decide
  exact hor _

/-- The address BUS.DEC answers is legal (R70, R71). -/
theorem busDec_address_legal (b : Byte) : addressLegal (busDec b).address = true := by
  have hy := (b.extractLsb' 0 3).isLt
  rw [addressLegal_iff, busDec_address]
  omega

/-- No wire value is illegal: each decodes to a representable record (R59). -/
theorem representable_decodeOf (swapped : Bool) (x : RegId) (w : Word16) :
    representable (decodeOf swapped x w) = true := by
  cases x with
  | div =>
    obtain ⟨hlo, hhi⟩ := divDec_n_range w
    simp [representable, decodeOf, hlo, hhi]
  | mux =>
    have h0 := preDec_mem (w.extractLsb' 1 2)
    have h1 := preDec_mem (prescaler1Code swapped w)
    exact Bool.and_eq_true_iff.mpr ⟨List.contains_iff_mem.mpr h0, List.contains_iff_mem.mpr h1⟩
  | bus => exact busDec_address_legal _

/-! ### Encoding a decoded record clears the reserved bits -/

/-- A code survives decoding and encoding (R94). -/
theorem preEnc_preDec (c : BitVec 2) : preEnc (preDec c) = .ok c := by rw [preDec_eq_pow, preEnc_pow]

/-- The word of a stored value taken out of a word is that word without its reserved bits (R81, R83). -/
theorem divWord_of_fields (w : Word16) :
    divWord (w.extractLsb' 0 8 ++ w.extractLsb' 14 2) = w &&& RegId.div.mask := by
  apply BitVec.eq_of_getLsbD_eq
  intro i hi
  simp only [divWord, RegId.mask, BitVec.getLsbD_append, BitVec.getLsbD_extractLsb', BitVec.getLsbD_and]
  interval_cases i <;> simp

/-- The prescaler1 code taken out of a word goes back to bits 15 and 0, under either setting of the switch (R99). -/
theorem prescaler1Bit15_code (swapped : Bool) (w : Word16) :
    prescaler1Bit15 swapped (prescaler1Code swapped w) = w.extractLsb' 15 1 := by
  cases swapped with
  | false => exact BitVec.extractLsb'_append_eq_left
  | true => exact BitVec.extractLsb'_append_eq_right

theorem prescaler1Bit0_code (swapped : Bool) (w : Word16) :
    prescaler1Bit0 swapped (prescaler1Code swapped w) = w.extractLsb' 0 1 := by
  cases swapped with
  | false => exact BitVec.extractLsb'_append_eq_right
  | true => exact BitVec.extractLsb'_append_eq_left

/-- The word of MUX fields taken out of a word is that word without its reserved bits (R95, R97, R99). -/
theorem muxWord_of_fields (swapped : Bool) (w : Word16) :
    muxWord swapped (muxDec swapped w) (w.extractLsb' 1 2) (prescaler1Code swapped w) = w &&& RegId.mux.mask := by
  rw [muxWord, prescaler1Bit15_code, prescaler1Bit0_code]
  apply BitVec.eq_of_getLsbD_eq
  intro i hi
  simp only [muxDec, RegId.mask, BitVec.getLsbD_append, BitVec.getLsbD_extractLsb', BitVec.getLsbD_and]
  interval_cases i <;> simp

/-- DIV.ENC after DIV.DEC (R84). -/
theorem divEnc_divDec (w : Word16) : divEnc (divDec w) = .ok (w &&& RegId.div.mask) := by
  obtain ⟨hlo, hhi⟩ := divDec_n_range w
  rcases divEnc_cases (divDec w) with ⟨-, -, he⟩ | ⟨hn, -⟩
  · have hstored : BitVec.ofNat 10 ((divDec w).n - 2) = w.extractLsb' 0 8 ++ w.extractLsb' 14 2 :=
      BitVec.eq_of_toNat_eq (Nat.mod_eq_of_lt (BitVec.isLt _))
    rw [he, hstored, divWord_of_fields]
  · omega

/-- MUX.ENC after MUX.DEC, under one setting of the switch (R98). -/
theorem muxEnc_muxDec (swapped : Bool) (w : Word16) :
    muxEnc swapped (muxDec swapped w) = .ok (w &&& RegId.mux.mask) := by
  have h0 : preEnc (muxDec swapped w).prescaler0 = .ok (w.extractLsb' 1 2) := preEnc_preDec _
  have h1 : preEnc (muxDec swapped w).prescaler1 = .ok (prescaler1Code swapped w) := preEnc_preDec _
  simp only [muxEnc, h0, h1, muxWord_of_fields]

/-- BUS.ENC after BUS.DEC (R73). -/
theorem busEnc_busDec (b : Byte) : busEnc (busDec b) = .ok (b &&& 0x0F#8) := by
  have haddr : BitVec.ofNat 3 (busDec b).address = b.extractLsb' 0 3 := by
    rw [busDec_address]
    exact BitVec.eq_of_toNat_eq (by rw [BitVec.toNat_ofNat]; omega)
  have hwc : (if (busDec b).writeControl then 0#1 else 1#1) = BitVec.ofBool (b.getLsbD 3) := by
    show (if !b.getLsbD 3 then 0#1 else 1#1) = _
    cases b.getLsbD 3 <;> rfl
  rw [busEnc, if_pos (busDec_address_legal b), haddr, hwc]
  congr 1
  apply BitVec.eq_of_getLsbD_eq
  intro i hi
  simp only [BitVec.getLsbD_append, BitVec.getLsbD_extractLsb', BitVec.getLsbD_and]
  interval_cases i <;> simp

/-- Encoding the decoded record gives the value with its reserved bits cleared, and never an error (R59). -/
theorem encodeOf_decodeOf (swapped : Bool) (x : RegId) (w : Word16) :
    encodeOf swapped (decodeOf swapped x w) = .ok (w &&& x.mask) := by
  cases x with
  | div => exact divEnc_divDec w
  | mux => exact muxEnc_muxDec swapped w
  | bus =>
    have hbyte : (w.extractLsb' 0 8 &&& 0x0F#8).setWidth 16 = w &&& RegId.bus.mask := by
      apply BitVec.eq_of_getLsbD_eq
      intro i hi
      interval_cases i <;> simp [RegId.mask]
    simp only [encodeOf, decodeOf, busEnc_busDec, Except.map, hbyte]

/-- Settles O28: decoding sees the defined bits alone, encoding gives them back, and no encoded word has another. -/
theorem reservedBitsZeroOnWriteIgnoredOnRead : Obligations.ReservedBitsZeroOnWriteIgnoredOnRead := by
  intro swapped x w w'
  refine ⟨representable_decodeOf swapped x w, fun hdefined => ?_, encodeOf_decodeOf swapped x w, fun rec v hv => ?_⟩
  · rw [← decodeOf_and_mask swapped x w, hdefined, decodeOf_and_mask]
  · cases rec with
    | bus b => exact (reservedClear_iff .bus v).mp (reservedClear_of_busEnc hv)
    | mux m => exact (reservedClear_iff .mux v).mp (reservedClear_of_muxEnc hv)
    | div d => exact (reservedClear_iff .div v).mp (reservedClear_of_divEnc hv)

end Sys2Proof.Proofs
end

section
/-! PROOFS. The caller's own lines: SET and the construction of a record (R61, R152). -/

namespace Sys2Proof.Proofs

open Sys2Proof.Machine Sys2Proof.Laws

section Lines

variable {s : State} {rest : List Line}

/-- A SET while there is no record is refused (R152). -/
theorem step_set_recordMissing {f : FieldSet} (hs : s.status = .running) (hl : s.lines = .set f :: rest)
    (hr : s.r = none) : step s = .refused .recordMissing := by
  rw [step_line hs hl]
  simp only [runLine, runSet, hr]

/-- A SET of a field the record lacks is refused (log 12). -/
theorem step_set_fieldOfOtherRecord {f : FieldSet} {rec : Record} (hs : s.status = .running)
    (hl : s.lines = .set f :: rest) (hr : s.r = some rec) (hf : f.apply rec = none) :
    step s = .refused .fieldOfOtherRecord := by
  rw [step_line hs hl]
  simp only [runLine, runSet, hr, hf]

/-- A construction replaces the record and takes its line off (R152). -/
theorem step_make {rec : Record} (hs : s.status = .running) (hl : s.lines = .make rec :: rest) :
    step s = .next { s with r := some rec, lines := rest } := by
  rw [step_line hs hl]
  rfl

end Lines

/-- Settles O46: `FieldSet.apply` answers the edited record on the record's own fields and nothing on the others, and a
step does what it answers. -/
theorem setEditsTheLocalRecordAlone : Obligations.SetEditsTheLocalRecordAlone := by
  intro s rest hs
  have edit {f rec rec'} (hr : s.r = some rec) (hf : f.apply rec = some rec') (hl : s.lines = .set f :: rest) :
      step s = .next { s with r := some rec', lines := rest } := step_set hs hl hr hf
  have refuse {f rec} (hr : s.r = some rec) (hf : f.apply rec = none) (hl : s.lines = .set f :: rest) :
      step s = .refused .fieldOfOtherRecord := step_set_fieldOfOtherRecord hs hl hr hf
  refine ⟨fun b hr => ?bus, fun d hr => ?div, fun m hr => ?mux, fun f hr hl => step_set_recordMissing hs hl hr,
    fun rec hl => step_make hs hl⟩
  case bus =>
    exact ⟨fun _ => edit hr rfl, fun _ => edit hr rfl,
      fun _ => refuse hr rfl, fun _ => refuse hr rfl, fun _ => refuse hr rfl, fun _ => refuse hr rfl,
      fun _ => refuse hr rfl, fun _ => refuse hr rfl, fun _ => refuse hr rfl, fun _ => refuse hr rfl⟩
  case div =>
    exact ⟨fun _ => edit hr rfl,
      fun _ => refuse hr rfl, fun _ => refuse hr rfl, fun _ => refuse hr rfl, fun _ => refuse hr rfl,
      fun _ => refuse hr rfl, fun _ => refuse hr rfl, fun _ => refuse hr rfl, fun _ => refuse hr rfl,
      fun _ => refuse hr rfl⟩
  case mux =>
    exact ⟨fun _ => edit hr rfl, fun _ => edit hr rfl, fun _ => edit hr rfl, fun _ => edit hr rfl,
      fun _ => edit hr rfl, fun _ => edit hr rfl, fun _ => edit hr rfl,
      fun _ => refuse hr rfl, fun _ => refuse hr rfl, fun _ => refuse hr rfl⟩

end Sys2Proof.Proofs
end

section
/-! PROOFS. The BUS codec: its two functions in the arithmetic of R70 and R72, the operations BUS.DEC and BUS.ENC, and the
round-trip laws of R73. -/

namespace Sys2Proof.Proofs

open Sys2Proof.Machine Sys2Proof.Laws

/-! ### BUS.DEC as a function -/

/-- The base 0x58 has no bit in common with a 3-bit value, so `|` is `+` (R70). -/
theorem base_or_mod8 (k : Nat) : 0x58 ||| (k % 8) = 0x58 + k % 8 :=
  (Nat.two_pow_add_eq_or_of_lt (i := 3) (Nat.mod_lt k (by decide)) 11).symm

theorem base_or_mod8_range (k : Nat) : 0x58 ≤ 0x58 ||| (k % 8) ∧ 0x58 ||| (k % 8) ≤ 0x5F := by
  rw [base_or_mod8]
  omega

/-- BUS.DEC on the number a byte stands for (R70, R71). -/
theorem busDec_eq (b : Byte) : busDec b = ⟨0x58 ||| (b.toNat % 8), b.getLsbD 3 == false⟩ := by
  have haddr : (busDec b).address = 0x58 ||| (b.toNat % 8) := by
    rw [busDec_address, base_or_mod8, BitVec.extractLsb'_toNat, Nat.shiftRight_zero]
  have hwc : (busDec b).writeControl = (b.getLsbD 3 == false) := (beq_false (b.getLsbD 3)).symm
  rw [← haddr, ← hwc]

/-- BUS.DEC of the low byte of a wire value reads bits 3..0 of the value itself (R28, R70). -/
theorem busDec_lowByte (w : Word16) :
    busDec (w.extractLsb' 0 8) = ⟨0x58 ||| (w.toNat % 8), w.getLsbD 3 == false⟩ := by
  have hlow : (w.extractLsb' 0 8).toNat % 8 = w.toNat % 8 := by
    rw [BitVec.extractLsb'_toNat, Nat.shiftRight_zero]
    omega
  have hbit : (w.extractLsb' 0 8).getLsbD 3 = w.getLsbD 3 := by simp
  rw [busDec_eq, hlow, hbit]

/-- BUS.DEC reads the fields a byte was put together from (R51, R70). -/
theorem busDec_append (hi : BitVec 4) (c : BitVec 1) (y : BitVec 3) :
    busDec (hi ++ c ++ y) = ⟨0x58 + y.toNat, !c.getLsbD 0⟩ := by
  have haddr : (busDec (hi ++ c ++ y)).address = 0x58 + y.toNat := by
    rw [busDec_address, BitVec.extractLsb'_append_eq_right]
  have hbit : (hi ++ c ++ y).getLsbD 3 = c.getLsbD 0 := by
    rw [BitVec.getLsbD_append, BitVec.getLsbD_append]
    rfl
  have hwc : (busDec (hi ++ c ++ y)).writeControl = !c.getLsbD 0 := congrArg not hbit
  rw [← haddr, ← hwc]

/-! ### BUS.ENC as a function -/

/-- The byte of R72 as a number: the 3 address bits, and 8 for a WC bit that is set. -/
theorem busByte_eq (a : Nat) (wc : Bool) :
    0b0000#4 ++ (if wc then 0#1 else 1#1) ++ BitVec.ofNat 3 a = BitVec.ofNat 8 (a % 8 + if wc then 0 else 8) := by
  have hfields : ∀ (y : BitVec 3) (wc : Bool),
      0b0000#4 ++ (if wc then 0#1 else 1#1) ++ y = BitVec.ofNat 8 (y.toNat + if wc then 0 else 8) := by decide
  rw [hfields, BitVec.toNat_ofNat]

/-- BUS.ENC on a legal address, as the fields of its byte (R51, R72). -/
theorem busEnc_ok_fields {b : BusRegister} (hlo : 0x58 ≤ b.address) (hhi : b.address ≤ 0x5F) :
    busEnc b = .ok (0b0000#4 ++ (if b.writeControl then 0#1 else 1#1) ++ BitVec.ofNat 3 b.address) := by
  rcases busEnc_cases b with ⟨-, -, he⟩ | ⟨hout, -⟩
  · exact he
  · omega

/-- BUS.ENC on a legal address, as the number of its byte (R72). -/
theorem busEnc_ok {a : Nat} (wc : Bool) (hlo : 0x58 ≤ a) (hhi : a ≤ 0x5F) :
    busEnc ⟨a, wc⟩ = .ok (BitVec.ofNat 8 (a % 8 + if wc then 0 else 8)) := by
  rw [busEnc_ok_fields (b := ⟨a, wc⟩) hlo hhi, busByte_eq]

/-- Settles O9: BUS.DEC and BUS.ENC in the arithmetic of R70 and R72; every illegal address meets the range check. -/
theorem busCodecFunctions : Obligations.BusCodecFunctions :=
  ⟨fun b => ⟨busDec_eq b, base_or_mod8_range b.toNat⟩,
    fun a wc => ⟨busEnc_ok wc, busEnc_error (b := ⟨a, wc⟩)⟩⟩

/-- Settles O16: BUS.DEC reads back the fields BUS.ENC put together, and 0x58 plus the low 3 bits of a legal address is
the address. -/
theorem busRoundTrip : Obligations.BusRoundTrip := by
  refine ⟨fun a wc hlo hhi => ⟨_, busEnc_ok_fields (b := ⟨a, wc⟩) hlo hhi, ?_⟩, busEnc_busDec⟩
  have haddr : 0x58 + (BitVec.ofNat 3 a).toNat = a := by
    rw [BitVec.toNat_ofNat]
    omega
  have hwc : (!(if wc then 0#1 else 1#1).getLsbD 0) = wc := by cases wc <;> rfl
  rw [busDec_append, haddr, hwc]

/-! ### The operations on the caller's locals -/

/-- A decode while `t` has a value sets the record to what the decode function gives, whatever the origin (R61). -/
theorem decodeInto_of_value {s : State} {w : Word16} {src : Source} (ht : s.t = some ⟨w, src⟩) (f : Word16 → Record) :
    decodeInto f s = .next { s with r := some (f w) } := by
  simp only [decodeInto, ht, State.setR]

/-- BUS.ENC while `r` is a BUS record ends as its encode function answers (R61, R72). -/
theorem exec_busEnc_of_record {s : State} {b : BusRegister} (hr : s.r = some (.bus b)) :
    exec .busEnc s = encodeInto .bus ((busEnc b).map fun v => v.setWidth 16) s := by
  simp only [exec, execBusEnc, hr]

/-- An encode that gives a word sets `t` to it (R61). -/
theorem encodeInto_of_ok {x : RegId} {res : Except OpError Word16} {w : Word16} (h : res = .ok w) (s : State) :
    encodeInto x res s = .next { s with t := some ⟨w, .encoded x⟩ } := by
  simp only [encodeInto, h, State.setT]

/-- An encode that gives an error ends the sequence with it (R134, R138). -/
theorem encodeInto_of_error {x : RegId} {res : Except OpError Word16} {e : OpError} (h : res = .error e) (s : State) :
    encodeInto x res s = .next { s with status := .failed e, lines := [] } := by
  simp only [encodeInto, h, State.raise]

/-- Zero-extending a byte keeps its number (R28). -/
theorem setWidth_ofNat_of_lt {n : Nat} (h : n < 256) : (BitVec.ofNat 8 n).setWidth 16 = BitVec.ofNat 16 n := by
  apply BitVec.eq_of_toNat_eq
  simp only [BitVec.toNat_setWidth, BitVec.toNat_ofNat]
  omega

/-- The byte of BUS.ENC on the 16-bit port: zero-extended, it is the same number (R28). -/
theorem busEnc_map_ok {a : Nat} (wc : Bool) (hlo : 0x58 ≤ a) (hhi : a ≤ 0x5F) :
    (busEnc ⟨a, wc⟩).map (fun v => v.setWidth 16) = .ok (BitVec.ofNat 16 (a % 8 + if wc then 0 else 8)) := by
  have hbyte : (a % 8 + if wc then 0 else 8) < 256 := by split <;> omega
  rw [busEnc_ok wc hlo hhi, Except.map, setWidth_ofNat_of_lt hbyte]

/-- Settles O14: BUS.DEC sets the record to what `busDec` gives on the low byte of `t`. -/
theorem busDecResult : Obligations.BusDecResult := by
  intro s w src ht
  have hexec : exec .busDec s = .next { s with r := some (.bus (busDec (w.extractLsb' 0 8))) } :=
    decodeInto_of_value ht fun w => .bus (busDec (w.extractLsb' 0 8))
  rw [hexec, busDec_lowByte]
  exact ⟨rfl, base_or_mod8_range w.toNat⟩

/-- Settles O15: BUS.ENC ends as `busEnc` answers, with a byte on a legal address and with InvalidAddress on any other. -/
theorem busEncResult : Obligations.BusEncResult := by
  intro s a wc hr
  rw [exec_busEnc_of_record hr]
  exact ⟨fun hlo hhi => encodeInto_of_ok (busEnc_map_ok wc hlo hhi) s,
    fun hout => encodeInto_of_error (congrArg (Except.map (BitVec.setWidth 16)) (busEnc_error hout)) s⟩

end Sys2Proof.Proofs
end

section
/-! PROOFS. The DIV codec: its two functions in the arithmetic of R81 and R83, the operations DIV.DEC and DIV.ENC, and the
round-trip laws of R84. -/

namespace Sys2Proof.Proofs

open Sys2Proof.Machine Sys2Proof.Laws

/-- Concatenation as arithmetic: the low part never carries into the high part, so `|` is `+`. -/
theorem toNat_append_eq_add {k l : Nat} (x : BitVec k) (y : BitVec l) :
    (x ++ y).toNat = x.toNat * 2 ^ l + y.toNat := by
  rw [BitVec.toNat_append, ← Nat.shiftLeft_add_eq_or_of_lt y.isLt, Nat.shiftLeft_eq]

/-! ### DIV.DEC as a function -/

/-- DIV.DEC on the number a word stands for: the low byte is N9..N2, the top two bits are N1,N0 (R80, R81). -/
theorem divDec_eq (w : Word16) : divDec w = ⟨w.toNat % 256 * 4 + w.toNat / 16384 + 2⟩ := by
  have hlow : (w.extractLsb' 0 8).toNat = w.toNat % 256 := by
    rw [BitVec.extractLsb'_toNat, Nat.shiftRight_zero]
  have htop : (w.extractLsb' 14 2).toNat = w.toNat / 16384 := by
    rw [BitVec.extractLsb'_toNat, Nat.shiftRight_eq_div_pow]
    omega
  rw [divDec, toNat_append_eq_add, hlow, htop, nOffset, show 2 ^ 2 = 4 from rfl]

/-! ### DIV.ENC as a function -/

/-- The word of R83 as a number: `v >> 2` in the low byte, `v & 3` in bits 15..14. -/
theorem divWord_eq (v : BitVec 10) : divWord v = BitVec.ofNat 16 (v.toNat / 4 + v.toNat % 4 * 16384) := by
  have hhigh : (v.extractLsb' 2 8).toNat = v.toNat / 4 := by
    rw [BitVec.extractLsb'_toNat, Nat.shiftRight_eq_div_pow]
    omega
  have hlow : (v.extractLsb' 0 2).toNat = v.toNat % 4 := by
    rw [BitVec.extractLsb'_toNat, Nat.shiftRight_zero]
  apply BitVec.eq_of_toNat_eq
  rw [divWord, toNat_append_eq_add, toNat_append_eq_add, hhigh, hlow, BitVec.toNat_ofNat, BitVec.toNat_ofNat]
  omega

/-- The stored value of a legal divisor fits 10 bits, so it is exactly `n - 2` (R85). -/
theorem toNat_storedValue {n : Nat} (hhi : n ≤ 1025) : (BitVec.ofNat 10 (n - 2)).toNat = n - 2 := by
  rw [BitVec.toNat_ofNat]
  omega

/-- DIV.ENC on a legal divisor, as the word of its stored value (R83). -/
theorem divEnc_ok_stored {d : DivRegister} (hlo : 2 ≤ d.n) (hhi : d.n ≤ 1025) :
    divEnc d = .ok (divWord (BitVec.ofNat 10 (d.n - 2))) := by
  rcases divEnc_cases d with ⟨-, -, he⟩ | ⟨hout, -⟩
  · exact he
  · omega

/-- DIV.ENC on a legal divisor, as the number of its word (R83). -/
theorem divEnc_ok {n : Nat} (hlo : 2 ≤ n) (hhi : n ≤ 1025) :
    divEnc ⟨n⟩ = .ok (BitVec.ofNat 16 ((n - 2) / 4 + (n - 2) % 4 * 16384)) := by
  rw [divEnc_ok_stored (d := ⟨n⟩) hlo hhi, divWord_eq, toNat_storedValue hhi]

/-- Settles O10: DIV.DEC and DIV.ENC in the arithmetic of R81 and R83; every illegal divisor meets the range check. -/
theorem divCodecFunctions : Obligations.DivCodecFunctions :=
  ⟨fun w => ⟨divDec_eq w, divDec_n_range w⟩, fun n => ⟨divEnc_ok, divEnc_error (d := ⟨n⟩)⟩⟩

/-! ### Round trips -/

/-- DIV.DEC puts together again the two parts `divWord` split a stored value into (R80, R84). -/
theorem divDec_divWord (v : BitVec 10) : divDec (divWord v) = ⟨v.toNat + 2⟩ := by
  have hlow : (divWord v).extractLsb' 0 8 = v.extractLsb' 2 8 := BitVec.extractLsb'_append_eq_right
  have htop : (divWord v).extractLsb' 14 2 = v.extractLsb' 0 2 := by
    rw [divWord, BitVec.append_assoc]
    exact BitVec.extractLsb'_append_eq_left
  rw [divDec, hlow, htop, BitVec.extractLsb'_append_extractLsb', nOffset]

/-- DIV.DEC undoes every DIV.ENC that answers a word (R84 (a)). -/
theorem divDec_of_divEnc {d : DivRegister} {w : Word16} (h : divEnc d = .ok w) : divDec w = d := by
  rcases divEnc_cases d with ⟨hlo, hhi, he⟩ | ⟨-, he⟩ <;> rw [he] at h <;> cases h
  rw [divDec_divWord, toNat_storedValue hhi, Nat.sub_add_cancel hlo]

/-- A DIV word whose reserved bits are clear is its own masked word (R19, R52). -/
theorem and_div_mask_of_reserved_clear {w : Word16} (h : w &&& 0x3F00#16 = 0#16) : w &&& RegId.div.mask = w := by
  have hsplit : w &&& RegId.div.mask ||| w &&& 0x3F00#16 = w := by
    rw [← BitVec.and_or_distrib_left]
    exact BitVec.and_allOnes
  rwa [h, BitVec.or_zero] at hsplit

/-- Settles O19: law (a) is `divDec_of_divEnc`, which also makes DIV.ENC injective, since DIV.DEC reads the divisor back;
law (b) is `divEnc_divDec`, and on a word without reserved bits the mask loses nothing. -/
theorem divRoundTrip : Obligations.DivRoundTrip := by
  refine ⟨fun n hlo hhi => ?_, divEnc_divDec, fun n m w hn hm => ?_, fun w hw => ?_⟩
  · exact ⟨_, divEnc_ok hlo hhi, divDec_of_divEnc (divEnc_ok hlo hhi)⟩
  · have hsame : (⟨n⟩ : DivRegister) = ⟨m⟩ := (divDec_of_divEnc hn).symm.trans (divDec_of_divEnc hm)
    exact congrArg DivRegister.n hsame
  · rw [divEnc_divDec, and_div_mask_of_reserved_clear hw]

/-! ### The operations on the caller's locals -/

/-- DIV.ENC while `r` is a DIV record ends as its encode function answers (R61, R83). -/
theorem exec_divEnc_of_record {s : State} {d : DivRegister} (hr : s.r = some (.div d)) :
    exec .divEnc s = encodeInto .div (divEnc d) s := by
  simp only [exec, execDivEnc, hr]

/-- Settles O17: DIV.DEC sets the record to what `divDec` gives on `t`. -/
theorem divDecResult : Obligations.DivDecResult := by
  intro s w src ht
  have hexec : exec .divDec s = .next { s with r := some (.div (divDec w)) } :=
    decodeInto_of_value ht fun w => .div (divDec w)
  have hrange := divDec_n_range w
  rw [divDec_eq] at hexec hrange
  exact ⟨hexec, hrange⟩

/-- Settles O18: DIV.ENC ends as `divEnc` answers, with a word on a legal divisor and with InvalidDivisor on any other. -/
theorem divEncResult : Obligations.DivEncResult := by
  intro s n hr
  rw [exec_divEnc_of_record hr]
  exact ⟨fun hlo hhi => encodeInto_of_ok (divEnc_ok hlo hhi) s, fun hout => encodeInto_of_error (divEnc_error hout) s⟩

end Sys2Proof.Proofs
end

section
/-! PROOFS. The prescaler table and the MUX codec: PRE.DEC, PRE.ENC, MUX.DEC and MUX.ENC as functions and as operations,
the switch of R99 as an exchange of two word bits, and the round-trip laws of R94 and R98. -/

namespace Sys2Proof.Proofs

open Sys2Proof.Machine Sys2Proof.Laws

/-! ### The prescaler table -/

/-- PRE.ENC refuses every divisor outside the table (R93). -/
theorem preEnc_error {p : Nat} (h : p ∉ [1, 2, 4, 8]) : preEnc p = .error .invalidPrescaler := by
  rcases preEnc_cases p with ⟨c, rfl, -⟩ | ⟨-, he⟩
  · exact absurd (pow_code_mem c) h
  · exact he

/-- A divisor of the table is the one of some code (R54). -/
theorem exists_code_of_mem {p : Nat} (h : p ∈ [1, 2, 4, 8]) : ∃ c : BitVec 2, p = 2 ^ c.toNat := by
  rcases preEnc_cases p with ⟨c, hc, -⟩ | ⟨hp, -⟩
  · exact ⟨c, hc⟩
  · exact absurd h hp

/-- Settles O11: the rows of R54 as powers of 2 in both directions; a divisor outside them is refused. -/
theorem prescalerFunctions : Obligations.PrescalerFunctions :=
  ⟨⟨preDec_eq_pow 0, preDec_eq_pow 1, preDec_eq_pow 2, preDec_eq_pow 3⟩,
    ⟨preEnc_pow 0, preEnc_pow 1, preEnc_pow 2, preEnc_pow 3⟩, fun _ hp => preEnc_error hp⟩

/-- Settles O22: a divisor of the table is the one of its code, and encoding gives that code back. -/
theorem prescalerRoundTrip : Obligations.PrescalerRoundTrip := by
  refine ⟨fun p hp => ?_, preEnc_preDec⟩
  obtain ⟨c, rfl⟩ := exists_code_of_mem hp
  exact ⟨c, preEnc_pow c, preDec_eq_pow c⟩

/-- A direct PRE.DEC returns the divisor of its code (R91). -/
theorem exec_preDec (c : BitVec 2) (s : State) :
    exec (.preDec c) s = .next { s with sub := some (.divisor (2 ^ c.toNat)) } := by
  simp only [exec, execPreDec, preDec_eq_pow, State.setSub]

/-- A direct PRE.ENC of a table divisor returns its code (R93). -/
theorem exec_preEnc_pow (c : BitVec 2) (s : State) :
    exec (.preEnc (2 ^ c.toNat)) s = .next { s with sub := some (.code c) } := by
  simp only [exec, execPreEnc, preEnc_pow, State.setSub]

/-- A direct PRE.ENC of any other divisor ends the sequence with InvalidPrescaler (R93, R138). -/
theorem exec_preEnc_error {p : Nat} (h : p ∉ [1, 2, 4, 8]) (s : State) :
    exec (.preEnc p) s = .next { s with status := .failed .invalidPrescaler, lines := [] } := by
  simp only [exec, execPreEnc, preEnc_error h, State.raise]

/-- Settles O20: `exec_preDec` at each of the four codes. -/
theorem preDecResult : Obligations.PreDecResult :=
  fun s => ⟨exec_preDec 0 s, exec_preDec 1 s, exec_preDec 2 s, exec_preDec 3 s⟩

/-- Settles O21: `exec_preEnc_pow` at each of the four codes, and the error on every other divisor. -/
theorem preEncResult : Obligations.PreEncResult := by
  refine fun s => ⟨exec_preEnc_pow 0 s, exec_preEnc_pow 1 s, exec_preEnc_pow 2 s, exec_preEnc_pow 3 s, ?_⟩
  intro p h1 h2 h4 h8
  exact exec_preEnc_error (by simp [h1, h2, h4, h8]) s

/-! ### MUX.DEC as a function -/

/-- A code as the number of its two bits (R54). -/
theorem toNat_code (c : BitVec 2) : 2 * (c.getLsbD 1).toNat + (c.getLsbD 0).toNat = c.toNat := by
  revert c
  decide

/-- PRE.DEC of a code put together from two bits of a word, the first one high. -/
theorem preDec_of_bits (w : Word16) (i j : Nat) :
    preDec (w.extractLsb' i 1 ++ w.extractLsb' j 1) = 2 ^ (2 * (w.getLsbD i).toNat + (w.getLsbD j).toNat) := by
  rw [preDec_eq_pow, ← toNat_code, BitVec.getLsbD_append, BitVec.getLsbD_append]
  simp

/-- The prescaler1 code on the bits of a word: bit 15 high, or bit 0 high when the switch is set (R95, R99). -/
theorem preDec_prescaler1Code (swapped : Bool) (w : Word16) :
    preDec (prescaler1Code swapped w) =
      if swapped then 2 ^ (2 * (w.getLsbD 0).toNat + (w.getLsbD 15).toNat)
      else 2 ^ (2 * (w.getLsbD 15).toNat + (w.getLsbD 0).toNat) := by
  cases swapped with
  | false => exact preDec_of_bits w 15 0
  | true => exact preDec_of_bits w 0 15

/-- MUX.DEC on the bits of a word (R95, R99). -/
theorem muxDec_eq (swapped : Bool) (w : Word16) : muxDec swapped w = {
    pdn1 := w.getLsbD 6
    pdn0 := w.getLsbD 5
    sel0 := w.getLsbD 4
    en0 := w.getLsbD 3
    prescaler0 := 2 ^ (2 * (w.getLsbD 2).toNat + (w.getLsbD 1).toNat)
    prescaler1 :=
      if swapped then 2 ^ (2 * (w.getLsbD 0).toNat + (w.getLsbD 15).toNat)
      else 2 ^ (2 * (w.getLsbD 15).toNat + (w.getLsbD 0).toNat)
    div1 := w.getLsbD 14 } := by
  have h0 : preDec (w.extractLsb' 1 2) = 2 ^ (2 * (w.getLsbD 2).toNat + (w.getLsbD 1).toNat) := by
    rw [preDec_eq_pow, ← toNat_code]
    simp
  rw [muxDec, h0, preDec_prescaler1Code]

/-! ### MUX.ENC as a function -/

/-- Every bit of a word is where R97 places it for these fields and codes, bits 15 and 0 by the switch of R99. -/
def PlacesMuxFields (swapped : Bool) (m : MuxRegister) (c0 c1 : BitVec 2) (w : Word16) : Prop :=
  w.getLsbD 15 = c1.getLsbD (if swapped then 0 else 1) ∧ w.getLsbD 14 = m.div1 ∧
  (∀ k, 7 ≤ k → k ≤ 13 → w.getLsbD k = false) ∧
  w.getLsbD 6 = m.pdn1 ∧ w.getLsbD 5 = m.pdn0 ∧ w.getLsbD 4 = m.sel0 ∧ w.getLsbD 3 = m.en0 ∧
  w.getLsbD 2 = c0.getLsbD 1 ∧ w.getLsbD 1 = c0.getLsbD 0 ∧
  w.getLsbD 0 = c1.getLsbD (if swapped then 1 else 0)

/-- The bit of a prescaler1 code that goes to word bit 15 (R99). -/
theorem prescaler1Bit15_bit (swapped : Bool) (c : BitVec 2) :
    (prescaler1Bit15 swapped c)[0] = c.getLsbD (if swapped then 0 else 1) := by
  cases swapped <;> simp [prescaler1Bit15]

/-- The bit of a prescaler1 code that goes to word bit 0 (R99). -/
theorem prescaler1Bit0_bit (swapped : Bool) (c : BitVec 2) :
    (prescaler1Bit0 swapped c)[0] = c.getLsbD (if swapped then 1 else 0) := by
  cases swapped <;> simp [prescaler1Bit0]

/-- The word of MUX.ENC has every bit where R97 places it. -/
theorem muxWord_placesMuxFields (swapped : Bool) (m : MuxRegister) (c0 c1 : BitVec 2) :
    PlacesMuxFields swapped m c0 c1 (muxWord swapped m c0 c1) := by
  have hreserved : ∀ k, 7 ≤ k → k ≤ 13 → (muxWord swapped m c0 c1).getLsbD k = false := by
    intro k hlo hhi
    simp only [muxWord, BitVec.getLsbD_append]
    interval_cases k <;> rfl
  refine ⟨?_, ?_, hreserved, ?_, ?_, ?_, ?_, ?_, ?_, ?_⟩
  all_goals
    simp only [muxWord, BitVec.getLsbD_append]
    simp [prescaler1Bit15_bit, prescaler1Bit0_bit]

/-- MUX.ENC on a record with table divisors is the word of their codes (R97). -/
theorem muxEnc_ok {m : MuxRegister} {c0 c1 : BitVec 2} (swapped : Bool)
    (h0 : m.prescaler0 = 2 ^ c0.toNat) (h1 : m.prescaler1 = 2 ^ c1.toNat) :
    muxEnc swapped m = .ok (muxWord swapped m c0 c1) := by
  simp only [muxEnc, h0, h1, preEnc_pow]

/-- Settles O12: MUX.DEC bit by bit, MUX.ENC on table divisors by the bits of its word, and its error on all others. -/
theorem muxCodecFunctions : Obligations.MuxCodecFunctions :=
  ⟨muxDec_eq,
    fun swapped m c0 c1 h0 h1 => ⟨_, muxEnc_ok swapped h0 h1, muxWord_placesMuxFields swapped m c0 c1⟩,
    fun swapped _ => muxEnc_error swapped⟩

/-! ### The operations on the caller's locals -/

/-- MUX.ENC while `r` is a MUX record ends as its encode function answers (R61, R97). -/
theorem exec_muxEnc_of_record {s : State} {m : MuxRegister} (hr : s.r = some (.mux m)) :
    exec .muxEnc s = encodeInto .mux (muxEnc s.p1Swapped m) s := by
  simp only [exec, execMuxEnc, hr]

/-- Settles O23: MUX.DEC sets the record to what `muxDec` gives on `t` under the state's switch. -/
theorem muxDecResult : Obligations.MuxDecResult := by
  intro s w src ht
  have hexec : exec .muxDec s = .next { s with r := some (.mux (muxDec s.p1Swapped w)) } :=
    decodeInto_of_value ht fun w => .mux (muxDec s.p1Swapped w)
  rw [hexec, muxDec_eq]

/-- Settles O24: MUX.ENC on table divisors sets `t` to the word of their codes. -/
theorem muxEncResult : Obligations.MuxEncResult := by
  intro s m c0 c1 hr h0 h1
  have hexec : exec .muxEnc s = .next { s with t := some ⟨muxWord s.p1Swapped m c0 c1, .encoded .mux⟩ } := by
    rw [exec_muxEnc_of_record hr, encodeInto_of_ok (muxEnc_ok s.p1Swapped h0 h1)]
  exact ⟨_, hexec, muxWord_placesMuxFields s.p1Swapped m c0 c1⟩

/-! ### The switch as an exchange of bits 15 and 0 -/

/-- A word with its bits 15 and 0 exchanged (R99). -/
def exchange15And0 (w : Word16) : Word16 := w.extractLsb' 0 1 ++ w.extractLsb' 1 14 ++ w.extractLsb' 15 1

theorem exchange15And0_bit15 (w : Word16) : (exchange15And0 w).getLsbD 15 = w.getLsbD 0 := by
  simp only [exchange15And0, BitVec.getLsbD_append]
  simp

theorem exchange15And0_bit0 (w : Word16) : (exchange15And0 w).getLsbD 0 = w.getLsbD 15 := by
  simp only [exchange15And0, BitVec.getLsbD_append]
  simp

theorem exchange15And0_bit_between (w : Word16) {k : Nat} (hlo : 1 ≤ k) (hhi : k ≤ 14) :
    (exchange15And0 w).getLsbD k = w.getLsbD k := by
  simp only [exchange15And0, BitVec.getLsbD_append]
  interval_cases k <;> simp

/-- Bits 15 and 0 crossed and the bits between kept make a word the exchanged one. -/
theorem eq_exchange15And0 {w w' : Word16} (h15 : w'.getLsbD 15 = w.getLsbD 0) (h0 : w'.getLsbD 0 = w.getLsbD 15)
    (hmid : ∀ k, 1 ≤ k → k ≤ 14 → w'.getLsbD k = w.getLsbD k) : w' = exchange15And0 w := by
  apply BitVec.eq_of_getLsbD_eq
  intro i hi
  obtain rfl | rfl | ⟨hlo, hhi⟩ : i = 0 ∨ i = 15 ∨ (1 ≤ i ∧ i ≤ 14) := by omega
  · rw [h0, exchange15And0_bit0]
  · rw [h15, exchange15And0_bit15]
  · rw [hmid i hlo hhi, exchange15And0_bit_between w hlo hhi]

theorem exchange15And0_involutive : Function.Involutive exchange15And0 := fun w =>
  (eq_exchange15And0 (exchange15And0_bit0 w).symm (exchange15And0_bit15 w).symm
    fun _ hlo hhi => (exchange15And0_bit_between w hlo hhi).symm).symm

/-- MUX.DEC with the switch set reads the exchanged word (R99). -/
theorem muxDec_swapped (w : Word16) : muxDec true w = muxDec false (exchange15And0 w) := by
  simp (disch := decide) only [muxDec_eq, exchange15And0_bit15, exchange15And0_bit0, exchange15And0_bit_between,
    if_true, Bool.false_eq_true, if_false]

/-- The word of MUX.ENC with the switch set is the exchanged one (R99). -/
theorem muxWord_swapped (m : MuxRegister) (c0 c1 : BitVec 2) :
    muxWord true m c0 c1 = exchange15And0 (muxWord false m c0 c1) := by
  obtain ⟨t15, t14, tres, t6, t5, t4, t3, t2, t1, t0⟩ := muxWord_placesMuxFields true m c0 c1
  obtain ⟨f15, f14, fres, f6, f5, f4, f3, f2, f1, f0⟩ := muxWord_placesMuxFields false m c0 c1
  refine eq_exchange15And0 (t15.trans f0.symm) (t0.trans f15.symm) fun k hlo hhi => ?_
  obtain ⟨hk7, hk13⟩ | rfl | rfl | rfl | rfl | rfl | rfl | rfl :
      (7 ≤ k ∧ k ≤ 13) ∨ k = 14 ∨ k = 6 ∨ k = 5 ∨ k = 4 ∨ k = 3 ∨ k = 2 ∨ k = 1 := by omega
  exacts [(tres k hk7 hk13).trans (fres k hk7 hk13).symm, t14.trans f14.symm, t6.trans f6.symm, t5.trans f5.symm,
    t4.trans f4.symm, t3.trans f3.symm, t2.trans f2.symm, t1.trans f1.symm]

/-- MUX.ENC with the switch set gives a word exactly when it gives the exchanged one without it (R99). -/
theorem muxEnc_swapped_iff (m : MuxRegister) (w : Word16) :
    muxEnc true m = .ok w ↔ muxEnc false m = .ok (exchange15And0 w) := by
  rcases muxEnc_cases true m with ⟨c0, c1, h0, h1, he⟩ | ⟨hbad, he⟩
  · rw [he, muxEnc_ok false h0 h1, muxWord_swapped, Except.ok.injEq, Except.ok.injEq]
    exact exchange15And0_involutive.eq_iff
  · simp [he, muxEnc_error false hbad]

/-- Settles O26: `w'` is the exchanged word, which the codec with the switch set reads and writes in place of `w`. -/
theorem swappedCodecExchangesBits15And0 : Obligations.SwappedCodecExchangesBits15And0 := by
  intro w w' h15 h0 hmid
  rw [eq_exchange15And0 h15 h0 hmid]
  exact ⟨muxDec_swapped w, fun m => muxEnc_swapped_iff m w⟩

/-! ### Round trips -/

/-- MUX.DEC reads the fields of a record back from its word, under either setting of the switch (R98). -/
theorem muxDec_muxWord {m : MuxRegister} {c0 c1 : BitVec 2} (swapped : Bool)
    (h0 : m.prescaler0 = 2 ^ c0.toNat) (h1 : m.prescaler1 = 2 ^ c1.toNat) :
    muxDec swapped (muxWord swapped m c0 c1) = m := by
  obtain ⟨b15, b14, -, b6, b5, b4, b3, b2, b1, b0⟩ := muxWord_placesMuxFields swapped m c0 c1
  rw [muxDec_eq, b15, b14, b6, b5, b4, b3, b2, b1, b0, toNat_code, ← h0]
  cases swapped <;> simp only [if_true, Bool.false_eq_true, if_false, toNat_code, ← h1]

/-- MUX.DEC undoes every MUX.ENC that answers a word (R98). -/
theorem muxDec_of_muxEnc {swapped : Bool} {m : MuxRegister} {w : Word16} (h : muxEnc swapped m = .ok w) :
    muxDec swapped w = m := by
  rcases muxEnc_cases swapped m with ⟨c0, c1, h0, h1, he⟩ | ⟨-, he⟩ <;> rw [he] at h <;> cases h
  exact muxDec_muxWord swapped h0 h1

/-- A mask loses nothing of a word that is clear in the bits the mask leaves out. -/
theorem and_eq_self_of_complement_clear {n : Nat} {mask rest w : BitVec n} (hcover : mask ||| rest = BitVec.allOnes n)
    (hclear : w &&& rest = 0#n) : w &&& mask = w := by
  have hsplit : w &&& mask ||| w &&& rest = w := by
    rw [← BitVec.and_or_distrib_left, hcover, BitVec.and_allOnes]
  rwa [hclear, BitVec.or_zero] at hsplit

/-- Settles O27: `muxDec_of_muxEnc` gives the first law and injectivity, since MUX.DEC reads the record back; encoding a
decoded word is `muxEnc_muxDec`, and on a word without reserved bits the mask loses nothing. -/
theorem muxRoundTrip : Obligations.MuxRoundTrip := by
  refine fun swapped => ⟨fun m h0 h1 => ?_, muxEnc_muxDec swapped, fun m m' w hm hm' => ?_, fun w hw => ?_⟩
  · obtain ⟨c0, hc0⟩ := exists_code_of_mem h0
    obtain ⟨c1, hc1⟩ := exists_code_of_mem h1
    exact ⟨_, muxEnc_ok swapped hc0 hc1, muxDec_muxWord swapped hc0 hc1⟩
  · exact (muxDec_of_muxEnc hm).symm.trans (muxDec_of_muxEnc hm')
  · rw [muxEnc_muxDec, and_eq_self_of_complement_clear (by decide) hw]

end Sys2Proof.Proofs
end

section
/-! PROOFS. The transport calls on a configured handle: what a read, a write and the EEPROM-write trigger leave when the
draw lets them pass and when it does not (R111 to R120, R135). -/

namespace Sys2Proof.Proofs

open Sys2Proof.Machine Sys2Proof.Safety Sys2Proof.Laws

/-! ### The two bytes of a word, and the byte of a BUS value -/

/-- The payload of a word in the shifts of R34: low byte first. -/
theorem bytesOfWord_eq_shift (w : Word16) : bytesOfWord w = [w.setWidth 8, (w >>> 8).setWidth 8] := by
  have hlow : BitVec.ofNat 8 w.toNat = w.setWidth 8 := BitVec.eq_of_toNat_eq (by simp)
  have hhigh : BitVec.ofNat 8 (w.toNat / 256) = (w >>> 8).setWidth 8 :=
    BitVec.eq_of_toNat_eq (by simp [Nat.shiftRight_eq_div_pow])
  rw [bytesOfWord_eq, hlow, hhigh]

/-- The low byte of a zero-extended byte is the byte (R28). -/
@[simp] theorem lowByte_setWidth (b : Byte) : (b.setWidth 16).extractLsb' 0 8 = b := by
  apply BitVec.eq_of_toNat_eq
  rw [BitVec.extractLsb'_toNat, Nat.shiftRight_zero, BitVec.toNat_setWidth]
  omega

/-- A BUS byte is its own payload (R35). -/
theorem payloadOf_bus_setWidth (b : Byte) : payloadOf .bus (b.setWidth 16) = [b] :=
  congrArg (fun y => [y]) (lowByte_setWidth b)

/-- A zero-extended byte put into BUS is that byte (R28). -/
theorem put_bus_setWidth (b : Byte) (g : Regs) : g.put .bus (b.setWidth 16) = { g with bus := b } := by
  rw [Regs.put, lowByte_setWidth]

/-! ### What a read returns, register by register -/

/-- A read of DIV draws bits 13..8 (R19, R52). -/
theorem readValue_div (g : Regs) (reserved : Word16) :
    readValue .div g reserved = (g.div &&& 0xC0FF#16) ||| (reserved &&& 0x3F00#16) := rfl

/-- A read of MUX draws bits 13..7 (R19, R53). -/
theorem readValue_mux (g : Regs) (reserved : Word16) :
    readValue .mux g reserved = (g.mux &&& 0xC07F#16) ||| (reserved &&& 0x3F80#16) := rfl

/-- A read of BUS draws bits 7..4 of its byte, and has nothing above them (R19, R51). -/
theorem readValue_bus (g : Regs) (reserved : Word16) :
    readValue .bus g reserved = ((g.bus &&& 0x0F#8) ||| (reserved.setWidth 8 &&& 0xF0#8)).setWidth 16 := by
  apply BitVec.eq_of_getLsbD_eq
  intro i hi
  interval_cases i <;> simp [readValue, Regs.value, RegId.mask, RegId.width]

/-- Decoding what a read returns gives the record the register holds: the drawn bits do not count (R20, R59). -/
theorem decodeOf_readValue (swapped : Bool) (x : RegId) (g : Regs) (reserved : Word16) :
    decodeOf swapped x (readValue x g reserved) = decodeOf swapped x (g.value x) := by
  rw [← decodeOf_and_mask, readValue_and_mask, decodeOf_and_mask]

/-! ### Reads -/

/-- The state a read of x leaves when it passes: the value in `t`, the tuple on the wire, the draw used (R20, R62). -/
def passedRead (x : RegId) (s : State) : State :=
  { s.useDraw with
    t := some ⟨readValue x s.reg s.nextDraw.reserved, .read x⟩
    wire := s.wire ++ [⟨.read, x.id, some (payloadOf x (readValue x s.reg s.nextDraw.reserved)), true⟩] }

section Read

variable {s : State} (hc : s.handle = .configured)

include hc

theorem readRegister_passes (x : RegId) (hf : s.nextDraw.fails = false) :
    readRegister x s = .next (passedRead x s) := by
  have hvalue := valueOfPayload_payloadOf x (readValue x s.reg s.nextDraw.reserved)
  rw [readValue_and_width] at hvalue
  simp [readRegister, hc, memRead_register, hf, hvalue, State.setT, State.log, passedRead]

theorem readRegister_fails (x : RegId) (hf : s.nextDraw.fails = true) :
    readRegister x s = .next { s.useDraw with
      status := .failed .ioError, lines := [], wire := s.wire ++ [⟨.read, x.id, none, false⟩] } := by
  simp [readRegister, hc, memRead_register, hf, State.raise, State.log]

end Read

/-- Settles O33: a passed read of DIV, its value and payload in the masks and shifts of R19 and R34. -/
theorem rdDivResult : Obligations.RdDivResult := by
  intro s hc
  refine ⟨fun hf => ?_, readRegister_fails hc .div⟩
  dsimp only
  rw [← readValue_div, ← bytesOfWord_eq_shift]
  exact readRegister_passes hc .div hf

/-- Settles O34: a passed read of MUX, its value and payload in the masks and shifts of R19 and R34. -/
theorem rdMuxResult : Obligations.RdMuxResult := by
  intro s hc
  refine ⟨fun hf => ?_, readRegister_fails hc .mux⟩
  dsimp only
  rw [← readValue_mux, ← bytesOfWord_eq_shift]
  exact readRegister_passes hc .mux hf

/-- Settles O35: a passed read of BUS, whose value is one byte, zero-extended in `t` and alone in the payload. -/
theorem rdBusResult : Obligations.RdBusResult := by
  intro s hc
  refine ⟨fun hf => ?_, readRegister_fails hc .bus⟩
  dsimp only
  rw [← payloadOf_bus_setWidth, ← readValue_bus]
  exact readRegister_passes hc .bus hf

/-! ### Writes -/

/-- Whether a write persists does not depend on bits above the register's width (R24). -/
theorem persistence_and_width (x : RegId) (oldBus : Byte) (v : Word16) :
    persistence x oldBus (v &&& x.width) = persistence x oldBus v := by
  cases x with
  | div | mux => rfl
  | bus =>
    have hbit : (v &&& RegId.bus.width).getLsbD 3 = v.getLsbD 3 := getLsbD_and_of_true (by decide) v
    rw [persistence, persistence, hbit]

/-- The EEPROM copy after a write takes the register's own bits of the value alone. -/
theorem nvAfterWrite_and_width (d : Draw) (x : RegId) (v : Word16) (oldBus : Byte) (nv : Regs) :
    nvAfterWrite d x (v &&& x.width) oldBus nv = nvAfterWrite d x v oldBus nv := by
  simp only [nvAfterWrite, put_and_width, persistence_and_width]

/-- The state a write of v to x leaves when it passes: the value in the register, the EEPROM copy as R24 says, the tuple
on the wire, the draw used (R20, R62). -/
def passedWrite (x : RegId) (v : Word16) (s : State) : State :=
  { s.useDraw with
    reg := s.reg.put x v
    nv := nvAfterWrite s.nextDraw x v s.reg.bus s.nv
    wire := s.wire ++ [⟨.write, x.id, some (payloadOf x v), true⟩] }

theorem writeRegister_passes {x : RegId} {v : Word16} {s : State} (hc : s.handle = .configured)
    (ht : s.t = some ⟨v, .encoded x⟩) (hf : s.nextDraw.fails = false) :
    writeRegister x s = .next (passedWrite x v s) := by
  have hreg : regAfterWrite s.nextDraw x (valueOfPayload (payloadOf x v)) s.reg = s.reg.put x v := by
    rcases regAfterWrite_payload_cases s.nextDraw x v s.reg with ⟨hfails, -⟩ | hput
    · exact absurd (hf.symm.trans hfails) Bool.false_ne_true
    · exact hput
  rw [writeRegister_encoded hc ht, hreg, valueOfPayload_payloadOf, nvAfterWrite_and_width, hf]
  rfl

/-- The EEPROM copy of DIV or MUX takes a written word exactly when WC is 0 (R24, R115, R116). -/
theorem nvAfterWrite_of_ne_bus {d : Draw} {x : RegId} (hf : d.fails = false) (hx : x ≠ .bus) (v : Word16)
    (oldBus : Byte) (nv : Regs) :
    nvAfterWrite d x v oldBus nv = if oldBus.getLsbD 3 then nv else nv.put x v := by
  have hpersists : persistence x oldBus v = if oldBus.getLsbD 3 then .never else .always := by
    cases x with
    | div | mux => rfl
    | bus => exact absurd rfl hx
  rw [nvAfterWrite, hf, hpersists]
  cases oldBus.getLsbD 3 <;> rfl

/-- A write of DIV or MUX that passes: the word's two bytes on the wire, the EEPROM copy by the WC bit (R24, R34). -/
theorem passedWrite_of_ne_bus {x : RegId} {s : State} (hf : s.nextDraw.fails = false) (hx : x ≠ .bus) (v : Word16) :
    passedWrite x v s = { s.useDraw with
      reg := s.reg.put x v
      nv := if s.reg.bus.getLsbD 3 then s.nv else s.nv.put x v
      wire := s.wire ++ [⟨.write, x.id, some [v.setWidth 8, (v >>> 8).setWidth 8], true⟩] } := by
  rw [passedWrite, nvAfterWrite_of_ne_bus hf hx, payloadOf_of_ne_bus hx, bytesOfWord_eq_shift]

/-- The EEPROM copy of BUS takes a written byte when both WC bits are 0, stays when both are 1, and follows the draw when
they differ (R24, R117, log 9). -/
theorem nvAfterWrite_bus {d : Draw} (hf : d.fails = false) (v oldBus : Byte) (nv : Regs) :
    nvAfterWrite d .bus (v.setWidth 16) oldBus nv =
      if oldBus.getLsbD 3 = false ∧ v.getLsbD 3 = false then { nv with bus := v }
      else if oldBus.getLsbD 3 = true ∧ v.getLsbD 3 = true then nv
      else if d.nvBus then { nv with bus := v } else nv := by
  have hnew : (v.setWidth 16).getLsbD 3 = v.getLsbD 3 := by simp
  rw [nvAfterWrite, hf, persistence, wcBit, put_bus_setWidth, hnew]
  cases oldBus.getLsbD 3 <;> cases v.getLsbD 3 <;> rfl

/-- Settles O36: a passed write of DIV, a register of two bytes. -/
theorem wrDivResult : Obligations.WrDivResult := by
  intro s v hc ht hf
  have hexec : exec .wrDiv s = .next (passedWrite .div v s) := writeRegister_passes hc ht hf
  rw [hexec, passedWrite_of_ne_bus hf (by decide)]
  rfl

/-- Settles O37: a passed write of MUX, a register of two bytes. -/
theorem wrMuxResult : Obligations.WrMuxResult := by
  intro s v hc ht hf
  have hexec : exec .wrMux s = .next (passedWrite .mux v s) := writeRegister_passes hc ht hf
  rw [hexec, passedWrite_of_ne_bus hf (by decide)]
  rfl

/-- Settles O38: a passed write of BUS, whose payload is the byte, the EEPROM copy by both WC bits. -/
theorem wrBusResult : Obligations.WrBusResult := by
  intro s v hc ht hf
  have hexec : exec .wrBus s = .next (passedWrite .bus (v.setWidth 16) s) := writeRegister_passes hc ht hf
  rw [hexec, passedWrite, put_bus_setWidth, payloadOf_bus_setWidth, nvAfterWrite_bus hf]
  rfl

/-- Settles O43: on a configured handle with a value in `t`, the origin of the value is what the write checks. -/
theorem writeNeedsMatchingEncode : Obligations.WriteNeedsMatchingEncode := by
  intro s w x i hi hc ht hw
  obtain rfl := eq_wrOf_of_mem_pairs hi
  rw [exec_wrOf]
  simp only [writeRegister, hc, ht, hw, if_true, if_false]

/-! ### The EEPROM-write trigger -/

/-- A trigger that passes copies all three registers (R25). -/
theorem nvAfterE2W_of_passes {d : Draw} (hf : d.fails = false) (g nv : Regs) : nvAfterE2W d g nv = g := by
  simp [nvAfterE2W, hf]

/-- Each copy after a trigger is the old one or the register, however it ended (R25, D18). -/
theorem nvAfterE2W_cases (d : Draw) (g nv : Regs) :
    ((nvAfterE2W d g nv).bus = nv.bus ∨ (nvAfterE2W d g nv).bus = g.bus) ∧
    ((nvAfterE2W d g nv).mux = nv.mux ∨ (nvAfterE2W d g nv).mux = g.mux) ∧
    ((nvAfterE2W d g nv).div = nv.div ∨ (nvAfterE2W d g nv).div = g.div) :=
  ⟨ite_eq_or_eq .., ite_eq_or_eq .., ite_eq_or_eq ..⟩

/-- `E2W` on a configured handle always answers (R120). -/
theorem triggerEepromWrite_configured {s : State} (hc : s.handle = .configured) :
    triggerEepromWrite s =
      .next (({ s.useDraw.log ⟨.write, cmdE2W, some [], !s.nextDraw.fails⟩ with
          nv := nvAfterE2W s.nextDraw s.reg s.nv } : State).afterWrite
        (if s.nextDraw.fails then .error .ioError else .ok ())) := by
  simp only [triggerEepromWrite, hc, if_true, memWrite_e2w]

/-- Settles O39: the trigger's state with the copies that `nvAfterE2W` leaves, then the error entry where it failed. -/
theorem e2wResult : Obligations.E2wResult := by
  intro s hc
  have hexec : exec .e2w s = _ := triggerEepromWrite_configured hc
  refine ⟨fun hf => ?_, fun hf => ⟨nvAfterE2W s.nextDraw s.reg s.nv, ?_, nvAfterE2W_cases ..⟩⟩
  · rw [hexec, nvAfterE2W_of_passes hf, hf]
    rfl
  · rw [hexec, hf]
    rfl

end Sys2Proof.Proofs
end

section
/-! PROOFS. Sequences: the outcome and its exit code, the lines that call operations, and the runs of GET and UPD
(R121 to R124). -/

namespace Sys2Proof.Proofs

open Sys2Proof.Machine Sys2Proof.Safety Sys2Proof.Laws

/-! ### The outcome -/

/-- A sequence that an error ended is a fixed point of the step: there is no retry (R138, R139). -/
theorem step_of_failed {s : State} {e : OpError} (h : s.status = .failed e) : step s = .next s := by
  simp only [step, h]

theorem runSteps_of_failed {s : State} {e : OpError} (h : s.status = .failed e) (k : Nat) : runSteps k s = .next s := by
  induction k with
  | zero => rfl
  | succ k ih => rw [runSteps_succ (step_of_failed h), ih]

/-- A running sequence with no line left is a success (R121). -/
theorem step_of_no_lines {s : State} (hs : s.status = .running) (hl : s.lines = []) :
    step s = .next { s with status := .success } := by
  simp only [step, hs, advance, hl]

/-- Settles O7: the empty running sequence succeeds, and a failed one is a fixed point of any number of steps. -/
theorem sequenceEndsOnceAndForAll : Obligations.SequenceEndsOnceAndForAll :=
  ⟨fun _ => step_of_no_lines, fun _ _ k h => runSteps_of_failed h k⟩

/-- Settles O8: the exit code of each of the four outcomes. -/
theorem exitCodeMirrorsOutcome : Obligations.ExitCodeMirrorsOutcome := by
  intro st
  cases st <;> simp [Status.exitCode]

/-! ### Lines that call an operation -/

/-- Settles O5: the first line of the sequence is the call, and it decodes to the operation. -/
theorem stepRunsDecodedCall : Obligations.StepRunsDecodedCall := by
  intro s f bytes rest i hs hl hd
  rw [step_line hs hl]
  simp only [runLine, runCall, hd]

/-- The line of an operation that has a spelling runs that operation (R61). -/
theorem step_opLine {i : Instr} {s : State} {rest : List Line} (hw : i.wellFormed = true) (hs : s.status = .running)
    (hl : s.lines = opLine i :: rest) : step s = exec i { s with lines := rest } :=
  stepRunsDecodedCall s i.iface (encode i) rest i hs hl (decodeInvertsEncode i hw)

theorem wellFormed_rdOf (x : RegId) : (rdOf x).wellFormed = true := by cases x <;> rfl
theorem wellFormed_wrOf (x : RegId) : (wrOf x).wellFormed = true := by cases x <;> rfl
theorem wellFormed_decOf (x : RegId) : (decOf x).wellFormed = true := by cases x <;> rfl
theorem wellFormed_encOf (x : RegId) : (encOf x).wellFormed = true := by cases x <;> rfl

/-- A run goes on from the state an earlier part of it reached. -/
theorem runSteps_add {j : Nat} {s u : State} (h : runSteps j s = .next u) (k : Nat) :
    runSteps (j + k) s = runSteps k u := by
  induction j generalizing s with
  | zero =>
    cases h
    rw [Nat.zero_add]
  | succ j ih =>
    obtain ⟨v, hstep, hrest⟩ := runSteps_succ_next h
    rw [Nat.succ_add, runSteps_succ hstep, ih hrest]

theorem runSteps_one {s u : State} (h : step s = .next u) : runSteps 1 s = .next u := runSteps_succ h 0

/-! ### The register of a record -/

/-- The register that a record is a value of (R11 to R13). -/
def registerOf : Record → RegId
  | .bus _ => .bus
  | .mux _ => .mux
  | .div _ => .div

@[simp] theorem registerOf_decodeOf (swapped : Bool) (x : RegId) (w : Word16) :
    registerOf (decodeOf swapped x w) = x := by cases x <;> rfl

/-- SET changes a field of a record, never the register it belongs to (R61). -/
theorem registerOf_apply {f : FieldSet} {rec rec' : Record} (h : f.apply rec = some rec') :
    registerOf rec' = registerOf rec := by
  unfold FieldSet.apply at h
  split at h <;> cases h <;> rfl

/-- A non-empty list of changes is its first change and then the rest, if the first is possible. -/
theorem applyAll_cons_eq_some {f : FieldSet} {fs : List FieldSet} {rec rec' : Record} :
    applyAll (f :: fs) rec = some rec' ↔ ∃ mid, f.apply rec = some mid ∧ applyAll fs mid = some rec' :=
  Option.bind_eq_some_iff

theorem registerOf_applyAll {fs : List FieldSet} {rec rec' : Record} (h : applyAll fs rec = some rec') :
    registerOf rec' = registerOf rec := by
  induction fs generalizing rec with
  | nil =>
    cases h
    rfl
  | cons f fs ih =>
    obtain ⟨mid, hf, hrest⟩ := applyAll_cons_eq_some.mp h
    rw [ih hrest, registerOf_apply hf]

/-! ### Decode and encode of a register, as one -/

/-- `DEC X` sets the record to the decode of `t`, for each register (R61). -/
theorem exec_decOf {s : State} {w : Word16} {src : Source} (ht : s.t = some ⟨w, src⟩) (x : RegId) :
    exec (decOf x) s = .next { s with r := some (decodeOf s.p1Swapped x w) } := by
  cases x with
  | div => exact decodeInto_of_value ht (decodeOf s.p1Swapped .div)
  | mux => exact decodeInto_of_value ht (decodeOf s.p1Swapped .mux)
  | bus => exact decodeInto_of_value ht (decodeOf s.p1Swapped .bus)

/-- `ENC X` of a record of X ends as the encode function answers, for each register (R61). -/
theorem exec_encOf {s : State} {rec : Record} (hr : s.r = some rec) :
    exec (encOf (registerOf rec)) s = encodeInto (registerOf rec) (encodeOf s.p1Swapped rec) s := by
  cases rec with
  | bus b => exact exec_busEnc_of_record hr
  | mux m => exact exec_muxEnc_of_record hr
  | div d => exact exec_divEnc_of_record hr

/-- BUS.DEC of the byte BUS.ENC gives is the record (R73). -/
theorem busDec_of_busEnc {b : BusRegister} {v : Byte} (h : busEnc b = .ok v) : busDec v = b := by
  rcases busEnc_cases b with ⟨hlo, hhi, -⟩ | ⟨-, he⟩
  · obtain ⟨v', hv', hdec⟩ := busRoundTrip.1 b.address b.writeControl hlo hhi
    obtain rfl : v = v' := Except.ok.inj (h.symm.trans hv')
    exact hdec
  · cases h.symm.trans he

/-- Decoding an encoded record gives it back, for each register (R73, R84, R98). -/
theorem decodeOf_of_encodeOf {swapped : Bool} {rec : Record} {w : Word16} (h : encodeOf swapped rec = .ok w) :
    decodeOf swapped (registerOf rec) w = rec := by
  cases rec with
  | div d => exact congrArg Record.div (divDec_of_divEnc h)
  | mux m => exact congrArg Record.mux (muxDec_of_muxEnc h)
  | bus b =>
    cases hb : busEnc b with
    | error e => simp [encodeOf, hb, Except.map] at h
    | ok v =>
      obtain rfl : v.setWidth 16 = w := by simpa [encodeOf, hb, Except.map] using h
      rw [registerOf, decodeOf, lowByte_setWidth, busDec_of_busEnc hb]

/-- An encoded record has no reserved bit, for each register (R59). -/
theorem reservedClear_of_encodeOf {swapped : Bool} {rec : Record} {w : Word16} (h : encodeOf swapped rec = .ok w) :
    reservedClear (registerOf rec) w = true := by
  cases rec with
  | div d => exact reservedClear_of_divEnc h
  | mux m => exact reservedClear_of_muxEnc h
  | bus b => exact reservedClear_of_busEnc h

/-- What a register reads as after a put decodes as the value put, whose bits above the width do not count. -/
theorem decodeOf_value_put (swapped : Bool) (x : RegId) (w : Word16) (g : Regs) :
    decodeOf swapped x ((g.put x w).value x) = decodeOf swapped x w := by
  rw [← decodeOf_and_mask, value_put_and_mask, decodeOf_and_mask]

/-- A register in which a value without reserved bits was put has its reserved bits 0 (R59). -/
theorem value_put_reserved {x : RegId} {w : Word16} (h : reservedClear x w = true) (g : Regs) :
    (g.put x w).value x &&& ~~~x.mask = 0#16 := by
  rw [value_put]
  exact (reservedClear_iff x _).mp (reservedClear_and_width h)

/-! ### A step on a line of GET or UPD -/

section Lines

variable {s : State} {rest : List Line} (hs : s.status = .running)

include hs

/-- A step on `RD X` that passes (R61, R111 to R113). -/
theorem step_read {x : RegId} (hc : s.handle = .configured) (hl : s.lines = opLine (rdOf x) :: rest)
    (hf : s.nextDraw.fails = false) : step s = .next { passedRead x s with lines := rest } := by
  rw [step_opLine (wellFormed_rdOf x) hs hl, exec_rdOf]
  exact readRegister_passes (s := { s with lines := rest }) hc x hf

/-- A step on `DEC X` (R61). -/
theorem step_decode {x : RegId} {w : Word16} {src : Source} (hl : s.lines = opLine (decOf x) :: rest)
    (ht : s.t = some ⟨w, src⟩) :
    step s = .next { s with r := some (decodeOf s.p1Swapped x w), lines := rest } := by
  rw [step_opLine (wellFormed_decOf x) hs hl]
  exact exec_decOf (s := { s with lines := rest }) ht x

/-- A step on `ENC X` while `r` is a record of X (R61). -/
theorem step_encode {rec : Record} (hl : s.lines = opLine (encOf (registerOf rec)) :: rest) (hr : s.r = some rec) :
    step s = encodeInto (registerOf rec) (encodeOf s.p1Swapped rec) { s with lines := rest } := by
  rw [step_opLine (wellFormed_encOf _) hs hl]
  exact exec_encOf (s := { s with lines := rest }) hr

/-- A step on `WR X` of an encoded value that passes (R61, R115 to R117). -/
theorem step_write {x : RegId} {v : Word16} (hc : s.handle = .configured) (hl : s.lines = opLine (wrOf x) :: rest)
    (ht : s.t = some ⟨v, .encoded x⟩) (hf : s.nextDraw.fails = false) :
    step s = .next { passedWrite x v s with lines := rest } := by
  rw [step_opLine (wellFormed_wrOf x) hs hl, exec_wrOf]
  exact writeRegister_passes (s := { s with lines := rest }) hc ht hf

end Lines

/-! ### GET -/

/-- The state GET X leaves on a read that passes: that of the read, with the register's record in `r` (R122). -/
def passedGet (x : RegId) (rest : List Line) (s : State) : State :=
  { passedRead x s with r := some (decodeOf s.p1Swapped x (s.reg.value x)), lines := rest }

/-- The two steps of GET X: the read, then the decode of what it returned (R122). -/
theorem runSteps_get {x : RegId} {s : State} {rest : List Line} (hs : s.status = .running)
    (hc : s.handle = .configured) (hl : s.lines = getLines x ++ rest) (hf : s.nextDraw.fails = false) :
    runSteps 2 s = .next (passedGet x rest s) := by
  have hread : step s = .next { passedRead x s with lines := opLine (decOf x) :: rest } := step_read hs hc hl hf
  rw [runSteps_succ hread, passedGet, ← decodeOf_readValue s.p1Swapped x s.reg s.nextDraw.reserved]
  exact runSteps_one (step_decode (s := { passedRead x s with lines := opLine (decOf x) :: rest }) hs rfl rfl)

/-- Settles O48: the record `passedGet` holds, on a device that a read leaves alone. -/
theorem getYieldsDecodedRegister : Obligations.GetYieldsDecodedRegister := by
  intro x s rest hs hc hl hf
  exact ⟨passedGet x rest s, runSteps_get hs hc hl hf, rfl, rfl, hs, rfl, rfl⟩

/-! ### UPD -/

/-- The SET lines of a UPD make its changes one by one (R61, R123). -/
theorem runSteps_sets {fs : List FieldSet} {s : State} {rest : List Line} {rec rec' : Record}
    (hs : s.status = .running) (hl : s.lines = fs.map .set ++ rest) (hr : s.r = some rec)
    (h : applyAll fs rec = some rec') :
    runSteps fs.length s = .next { s with r := some rec', lines := rest } := by
  induction fs generalizing s rec with
  | nil =>
    cases h
    obtain rfl : s.lines = rest := hl
    rw [← hr]
    rfl
  | cons f fs ih =>
    obtain ⟨mid, hf, hrest⟩ := applyAll_cons_eq_some.mp h
    rw [List.length_cons, runSteps_succ (step_set hs hl hr hf)]
    exact ih hs rfl rfl hrest

/-- The state before the encode of UPD X: that of GET X, with the changed record in `r` (R123). -/
def beforeUpdEncode (x : RegId) (rec : Record) (rest : List Line) (s : State) : State :=
  { passedGet x (opLine (encOf x) :: opLine (wrOf x) :: rest) s with r := some rec }

/-- The state before the write of UPD X: the word of the changed record in `t` (R123). -/
def beforeUpdWrite (x : RegId) (rec : Record) (w : Word16) (rest : List Line) (s : State) : State :=
  { beforeUpdEncode x rec rest s with t := some ⟨w, .encoded x⟩, lines := opLine (wrOf x) :: rest }

section Upd

variable {x : RegId} {fs : List FieldSet} {s : State} {rec : Record} (hs : s.status = .running)
  (ha : applyAll fs (decodeOf s.p1Swapped x (s.reg.value x)) = some rec)

/-- The record a UPD X encodes is one of X, as the record it read. -/
theorem registerOf_upd {swapped : Bool} {v : Word16} (h : applyAll fs (decodeOf swapped x v) = some rec) :
    registerOf rec = x := by
  rw [registerOf_applyAll h, registerOf_decodeOf]

include hs ha

/-- UPD X up to its encode, on a read that passes: the record read, with the fields changed (R123). -/
theorem runSteps_upd_until_encode {rest : List Line} (hc : s.handle = .configured)
    (hl : s.lines = updLines x fs ++ rest) (hf : s.nextDraw.fails = false) :
    runSteps (2 + fs.length) s = .next (beforeUpdEncode x rec rest s) := by
  have hget : s.lines = getLines x ++ (fs.map .set ++ (opLine (encOf x) :: opLine (wrOf x) :: rest)) := by
    simpa [updLines] using hl
  rw [runSteps_add (runSteps_get hs hc hget hf)]
  exact runSteps_sets hs rfl rfl ha

/-- The encode of UPD X ends as the encode function answers on the changed record (R123). -/
theorem step_upd_encode (rest : List Line) :
    step (beforeUpdEncode x rec rest s) =
      encodeInto x (encodeOf s.p1Swapped rec) { beforeUpdEncode x rec rest s with lines := opLine (wrOf x) :: rest } := by
  obtain rfl : registerOf rec = x := registerOf_upd ha
  exact step_encode (s := beforeUpdEncode (registerOf rec) rec rest s) hs rfl rfl

end Upd

/-- Settles O50: the run up to the encode has read and written nothing, and the encode's error ends it there. -/
theorem refusedUpdWritesNothing : Obligations.RefusedUpdWritesNothing := by
  intro x fs s rest d ds rec e hs hc hl hd hf ha he
  have hread : s.nextDraw.fails = false := nextDraw_of_cons hd ▸ hf
  have hencode := step_upd_encode hs ha rest
  rw [he, encodeInto_of_error rfl] at hencode
  refine ⟨{ beforeUpdEncode x rec rest s with status := .failed e, lines := [] }, _, ?_, rfl, rfl, rfl, rfl,
    congrArg List.tail hd, rfl⟩
  rw [show 3 + fs.length = 2 + fs.length + 1 by omega, runSteps_add (runSteps_upd_until_encode hs ha hc hl hread)]
  exact runSteps_one hencode

/-- Settles O49: after the encode `t` holds the word, the write puts it into the register, and the word decodes to the
changed record and has no reserved bit. -/
theorem updChangesExactlyTheNamedFields : Obligations.UpdChangesExactlyTheNamedFields := by
  intro x fs s rest d₁ d₂ ds rec w hs hc hl hd hf₁ hf₂ ha he
  have hread : s.nextDraw.fails = false := nextDraw_of_cons hd ▸ hf₁
  have hdraws : (beforeUpdWrite x rec w rest s).draws = d₂ :: ds := congrArg List.tail hd
  have hpass : (beforeUpdWrite x rec w rest s).nextDraw.fails = false := nextDraw_of_cons hdraws ▸ hf₂
  have hencode : step (beforeUpdEncode x rec rest s) = .next (beforeUpdWrite x rec w rest s) := by
    rw [step_upd_encode hs ha, encodeInto_of_ok he]
    rfl
  have hwrite := step_write (s := beforeUpdWrite x rec w rest s) hs hc rfl rfl hpass
  obtain rfl : registerOf rec = x := registerOf_upd ha
  refine ⟨{ passedWrite _ w (beforeUpdWrite _ rec w rest s) with lines := rest }, _, ?run, hs, rfl,
    congrArg List.tail hdraws, rfl, ?record, ?reserved, List.append_assoc ..⟩
  case run =>
    rw [show 4 + fs.length = 2 + fs.length + 2 by omega, runSteps_add (runSteps_upd_until_encode hs ha hc hl hread),
      runSteps_succ hencode, runSteps_one hwrite]
  case record => exact (decodeOf_value_put s.p1Swapped _ w s.reg).trans (decodeOf_of_encodeOf he)
  case reserved => exact value_put_reserved (reservedClear_of_encodeOf he) s.reg

end Sys2Proof.Proofs
end

section
/-! PROOFS. Errors of the codec: MUX.ENC on an illegal prescaler (R132), and that a codec error comes before any effect
(R134, R137). -/

namespace Sys2Proof.Proofs

open Sys2Proof.Machine Sys2Proof.Safety Sys2Proof.Laws

/-- Settles O25: under the state's switch the encode function gives the error in place of a word, and MUX.ENC raises it. -/
theorem muxEncRaisesInvalidPrescaler : Obligations.MuxEncRaisesInvalidPrescaler := by
  intro s m hr hillegal
  rw [exec_muxEnc_of_record hr]
  exact encodeInto_of_error (muxEnc_error s.p1Swapped hillegal) s

/-- Of the updates only an error ends a running sequence, so the failure of one puts no value anywhere (R134). -/
theorem CallerUpdate.apply_of_failed {c : CallerUpdate} {s : State} {e : OpError} (hs : s.status = .running)
    (h : (c.apply s).status = .failed e) : c.apply s = { s with status := .failed e, lines := [] } := by
  have not_failed : s.status ≠ .failed e := by simp [hs]
  cases c with
  | record rec => exact absurd h not_failed
  | word x w => exact absurd h not_failed
  | sub v => exact absurd h not_failed
  | error e' =>
    obtain rfl : e' = e := Status.failed.inj h
    rfl

/-- Settles O31: a codec operation makes one update of the caller's fields, which on failure is the error alone; the failed
state is then a fixed point of every further step. -/
theorem codecErrorPrecedesAnyEffect : Obligations.CodecErrorPrecedesAnyEffect := by
  intro i s s' e k hi hs hexec hfailed
  obtain ⟨c, -, rfl⟩ := exec_codec_next hi hexec
  exact ⟨runSteps_of_failed hfailed k, CallerUpdate.apply_of_failed hs hfailed⟩

end Sys2Proof.Proofs
end

section
/-! PROOFS. Reset, the set-up of the handle, and the hazards: a local used before it has a value, a transfer before the
set-up is complete, a set-up action out of its order (R152, R153). -/

namespace Sys2Proof.Proofs

open Sys2Proof.Machine Sys2Proof.Safety Sys2Proof.Laws

/-! ### Reset -/

/-- At reset the address is the default one, and there is no local, line or transfer to be illegal (R26, R152). -/
theorem inv_reset : Inv State.reset where
  devAddr := (addressLegal_iff 0x58).mpr (by decide)
  wireValue := fun _ h => nomatch h
  ended := fun _ => rfl
  wire := fun _ h => nomatch h

/-- Settles O54: the reset state sets the default address and leaves both locals empty. -/
theorem resetMeetsInvariant : Obligations.ResetMeetsInvariant := ⟨inv_reset, rfl, rfl, rfl⟩

/-! ### Uses that come too early -/

/-- An operation listed for the three registers is the operation of one of them. -/
theorem exists_register_of_mem_operations {op : RegId → Instr} {i : Instr} (h : i ∈ [op .div, op .mux, op .bus]) :
    ∃ x, i = op x := by
  simp only [List.mem_cons, List.not_mem_nil, or_false] at h
  rcases h with rfl | rfl | rfl
  exacts [⟨.div, rfl⟩, ⟨.mux, rfl⟩, ⟨.bus, rfl⟩]

section TooEarly

variable {s : State}

theorem decodeInto_of_no_value (ht : s.t = none) (f : Word16 → Record) :
    decodeInto f s = .refused .wireValueMissing := by
  simp only [decodeInto, ht]

/-- `DEC X` is refused while `t` holds no value (R152). -/
theorem exec_decOf_of_no_value (ht : s.t = none) (x : RegId) : exec (decOf x) s = .refused .wireValueMissing := by
  cases x with
  | div => exact decodeInto_of_no_value ht (decodeOf s.p1Swapped .div)
  | mux => exact decodeInto_of_no_value ht (decodeOf s.p1Swapped .mux)
  | bus => exact decodeInto_of_no_value ht (decodeOf s.p1Swapped .bus)

/-- `ENC X` is refused while `r` holds no record (R152). -/
theorem exec_encOf_of_no_record (hr : s.r = none) (x : RegId) : exec (encOf x) s = .refused .recordMissing := by
  cases x with
  | div => simp only [encOf, exec, execDivEnc, hr]
  | mux => simp only [encOf, exec, execMuxEnc, hr]
  | bus => simp only [encOf, exec, execBusEnc, hr]

/-- `WR X` on a configured handle is refused while `t` holds no value (R152). -/
theorem writeRegister_of_no_value (hc : s.handle = .configured) (ht : s.t = none) (x : RegId) :
    writeRegister x s = .refused .wireValueMissing := by
  simp only [writeRegister, hc, ht, if_true]

section NotConfigured

variable (hc : s.handle ≠ .configured)

include hc

theorem readRegister_not_configured (x : RegId) : readRegister x s = .refused .handleNotConfigured := if_neg hc

theorem writeRegister_not_configured (x : RegId) : writeRegister x s = .refused .handleNotConfigured := if_neg hc

theorem triggerEepromWrite_not_configured : triggerEepromWrite s = .refused .handleNotConfigured := if_neg hc

/-- Every transport operation is refused before the set-up is complete (R153). -/
theorem exec_transport_not_configured {i : Instr} (hi : i ∈ [.rdDiv, .rdMux, .rdBus, .wrDiv, .wrMux, .wrBus, .e2w]) :
    exec i s = .refused .handleNotConfigured := by
  have hparts : i ∈ [.rdDiv, .rdMux, .rdBus] ++ [.wrDiv, .wrMux, .wrBus] ++ [.e2w] := hi
  rw [List.mem_append, List.mem_append, List.mem_singleton] at hparts
  rcases hparts with (hread | hwrite) | rfl
  · obtain ⟨x, rfl⟩ := exists_register_of_mem_operations (op := rdOf) hread
    rw [exec_rdOf, readRegister_not_configured hc]
  · obtain ⟨x, rfl⟩ := exists_register_of_mem_operations (op := wrOf) hwrite
    rw [exec_wrOf, writeRegister_not_configured hc]
  · exact triggerEepromWrite_not_configured hc

end NotConfigured

end TooEarly

/-- Settles O44: per register for the decodes, writes and encodes, and by the handle alone for the seven transfers. -/
theorem useBeforeValueOrSetUpIsRefused : Obligations.UseBeforeValueOrSetUpIsRefused := by
  refine ⟨fun s i hi ht => ?decode, fun s i hi hc ht => ?write, fun s i hi hr => ?encode,
    fun s i hi hc => exec_transport_not_configured hc hi⟩
  case decode =>
    obtain ⟨x, rfl⟩ := exists_register_of_mem_operations (op := decOf) hi
    exact exec_decOf_of_no_value ht x
  case write =>
    obtain ⟨x, rfl⟩ := exists_register_of_mem_operations (op := wrOf) hi
    rw [exec_wrOf, writeRegister_of_no_value hc ht]
  case encode =>
    obtain ⟨x, rfl⟩ := exists_register_of_mem_operations (op := encOf) hi
    exact exec_encOf_of_no_record hr x

/-! ### The three set-up actions -/

section SetUp

variable {s : State}

/-- An open needs a closed handle (R153, log 14). -/
theorem runOpen_out_of_order (hc : s.handle ≠ .closed) : runOpen s = .refused .setupOutOfOrder := if_neg hc

/-- A bind needs a handle that is just opened (R153, log 14). -/
theorem runBind_out_of_order {target : Nat} (hc : s.handle ≠ .opened) :
    runBind target s = .refused .setupOutOfOrder := if_neg hc

/-- A configuration needs a handle that is just bound (R153, log 14). -/
theorem runConfigure_out_of_order (hc : s.handle ≠ .bound) : runConfigure s = .refused .setupOutOfOrder := if_neg hc

/-- A bind to a legal address makes it the device address (R32, R153). -/
theorem runBind_legal {target : Nat} (hc : s.handle = .opened) (hlo : 0x58 ≤ target) (hhi : target ≤ 0x5F) :
    runBind target s = .next { s with devAddr := target, handle := .bound } := by
  simp only [runBind, hc, (addressLegal_iff target).mpr ⟨hlo, hhi⟩, if_true]

/-- A bind to any other address raises InvalidAddress and binds nothing (R32, R133). -/
theorem runBind_illegal {target : Nat} (hc : s.handle = .opened) (h : target < 0x58 ∨ 0x5F < target) :
    runBind target s = .next (s.raise .invalidAddress) := by
  simp only [runBind, hc, (addressLegal_eq_false_iff target).mpr h, if_true, Bool.false_eq_true, if_false]

section Draws

variable {d : Draw} {ds : List Draw} (hd : s.draws = d :: ds)

include hd

/-- An open that fails raises IoError and leaves the handle closed (R135). -/
theorem runOpen_fails (hc : s.handle = .closed) (hf : d.fails = true) :
    runOpen s = .next { s with status := .failed .ioError, lines := [], draws := ds } := by
  simp only [runOpen, hc, nextDraw_of_cons hd, useDraw_of_cons hd, hf, if_true, State.raise]

/-- An open that passes leaves the handle opened (R153). -/
theorem runOpen_passes (hc : s.handle = .closed) (hf : d.fails = false) :
    runOpen s = .next { s with handle := .opened, draws := ds } := by
  simp only [runOpen, hc, nextDraw_of_cons hd, useDraw_of_cons hd, hf, if_true, Bool.false_eq_true, if_false]

/-- A configuration that fails raises IoError and leaves the handle bound (R135). -/
theorem runConfigure_fails (hc : s.handle = .bound) (hf : d.fails = true) :
    runConfigure s = .next { s with status := .failed .ioError, lines := [], draws := ds } := by
  simp only [runConfigure, hc, nextDraw_of_cons hd, useDraw_of_cons hd, hf, if_true, State.raise]

/-- A configuration that passes leaves the handle configured (R153). -/
theorem runConfigure_passes (hc : s.handle = .bound) (hf : d.fails = false) :
    runConfigure s = .next { s with handle := .configured, draws := ds } := by
  simp only [runConfigure, hc, nextDraw_of_cons hd, useDraw_of_cons hd, hf, if_true, Bool.false_eq_true, if_false]

end Draws

end SetUp

/-- Settles O55: each action first looks at how far the handle has come. -/
theorem setUpOutOfOrderIsRefused : Obligations.SetUpOutOfOrderIsRefused := by
  intro s rest hs
  refine ⟨fun hc hl => ?_, fun target hc hl => ?_, fun hc hl => ?_⟩ <;> rw [step_line hs hl]
  · exact runOpen_out_of_order hc
  · exact runBind_out_of_order hc
  · exact runConfigure_out_of_order hc

/-! ### The set-up as a whole -/

/-- The state after an open that passed: the other two set-up lines are next (R153). -/
def afterOpen (target : Nat) (rest : List Line) (ds : List Draw) (s : State) : State :=
  { s with handle := .opened, lines := .bindHandle target :: .configureHandle :: rest, draws := ds }

/-- The state after a bind to a legal address: the configuration is next (R153). -/
def afterBind (target : Nat) (rest : List Line) (ds : List Draw) (s : State) : State :=
  { s with handle := .bound, devAddr := target, lines := .configureHandle :: rest, draws := ds }

section Sequence

variable {s : State} {target : Nat} {rest : List Line} {ds : List Draw} (hs : s.status = .running)

include hs

/-- The first set-up line opens the handle (R153). -/
theorem step_setUp (hl : s.lines = setupLines target ++ rest) :
    step s = runOpen { s with lines := .bindHandle target :: .configureHandle :: rest } := step_line hs hl

/-- The second set-up line binds it (R153). -/
theorem step_afterOpen :
    step (afterOpen target rest ds s) =
      runBind target { afterOpen target rest ds s with lines := .configureHandle :: rest } :=
  step_line (s := afterOpen target rest ds s) hs rfl

/-- The third set-up line configures it (R153). -/
theorem step_afterBind :
    step (afterBind target rest ds s) = runConfigure { afterBind target rest ds s with lines := rest } :=
  step_line (s := afterBind target rest ds s) hs rfl

end Sequence

/-- Settles O47: the sequence ends at the open, at the bind or at the configuration, or goes on after all three. -/
theorem setUpBindsLegalAddress : Obligations.SetUpBindsLegalAddress := by
  intro s target rest d₁ d₂ ds hs hc hl hd
  have hopen (hf : d₁.fails = false) : runSteps 1 s = .next (afterOpen target rest (d₂ :: ds) s) := by
    apply runSteps_one
    rw [step_setUp hs hl]
    exact runOpen_passes hd hc hf
  have hbind (hf : d₁.fails = false) (hlo : 0x58 ≤ target) (hhi : target ≤ 0x5F) :
      runSteps 2 s = .next (afterBind target rest (d₂ :: ds) s) := by
    rw [runSteps_add (hopen hf) 1]
    apply runSteps_one
    rw [step_afterOpen hs]
    exact runBind_legal rfl hlo hhi
  refine ⟨fun hf => ?openFails, fun hf hillegal => ?illegalTarget, fun hf hlo hhi hf₂ => ?configurationFails,
    fun hf hlo hhi hf₂ => ?configured⟩
  case openFails =>
    apply runSteps_one
    rw [step_setUp hs hl]
    exact runOpen_fails hd hc hf
  case illegalTarget =>
    rw [runSteps_add (hopen hf) 1]
    apply runSteps_one
    rw [step_afterOpen hs]
    exact runBind_illegal rfl hillegal
  case configurationFails =>
    rw [runSteps_add (hbind hf hlo hhi) 1]
    apply runSteps_one
    rw [step_afterBind hs]
    exact runConfigure_fails rfl rfl hf₂
  case configured =>
    rw [runSteps_add (hbind hf hlo hhi) 1]
    apply runSteps_one
    rw [step_afterBind hs]
    exact runConfigure_passes rfl rfl hf₂

end Sys2Proof.Proofs
end
